-- ==== Sys2Proof/Word.lean ====
section
/-!
DEFINITION. The word types of the core: bytes, 16-bit words, 4-bit and 12-bit instruction fields, and the register
selector. Only types and their plainest rearrangements stand here.
-/

namespace Sys2Proof

/-- A register, a RAM cell, a timer (10_state.md R20, R27, R32). -/
abbrev Byte := BitVec 8

/-- The program counter, the index register, a stack slot, an instruction word (10_state.md R23, R25, R26). -/
abbrev Word := BitVec 16

/-- A 4-bit instruction field (30_encoding.md R91). -/
abbrev Nibble := BitVec 4

/-- The 12-bit address literal NNN (30_encoding.md R91). -/
abbrev Imm12 := BitVec 12

/-- A register selector: X or Y of an instruction, 0..15 (10_state.md R20). -/
abbrev Reg := Fin 16

/-- The register VF, `V[15]` (10_state.md R21). -/
abbrev vf : Reg := 15

end Sys2Proof
end

