-- ==== Sys2Proof/Syntax.lean ====
section
/-!
DEFINITION. The instructions: one constructor for each row of spec/opcode_table.json, in the table's order
(30_encoding.md R94). Operands are the fields of 30_encoding.md R91.
-/

namespace Sys2Proof

/-- The 50 instructions of 30_encoding.md R94. -/
inductive Instr where
  /-- 00CN, `SCD n` -/
  | scd (n : Nibble)
  /-- 00DN, `SCU n` -/
  | scu (n : Nibble)
  /-- 00E0, `CLS` -/
  | cls
  /-- 00EE, `RET` -/
  | ret
  /-- 00FB, `SCR` -/
  | scr
  /-- 00FC, `SCL` -/
  | scl
  /-- 00FD, `EXIT` -/
  | exit
  /-- 00FE, `LOW` -/
  | low
  /-- 00FF, `HIGH` -/
  | high
  /-- 1NNN, `JP nnn` -/
  | jp (nnn : Imm12)
  /-- 2NNN, `CALL nnn` -/
  | call (nnn : Imm12)
  /-- 3XNN, `SE Vx, nn` -/
  | seImm (x : Reg) (nn : Byte)
  /-- 4XNN, `SNE Vx, nn` -/
  | sneImm (x : Reg) (nn : Byte)
  /-- 5XY0, `SE Vx, Vy` -/
  | seReg (x y : Reg)
  /-- 5XY2, `SAVE Vx, Vy` -/
  | save (x y : Reg)
  /-- 5XY3, `LOAD Vx, Vy` -/
  | load (x y : Reg)
  /-- 6XNN, `LD Vx, nn` -/
  | ldImm (x : Reg) (nn : Byte)
  /-- 7XNN, `ADD Vx, nn` -/
  | addImm (x : Reg) (nn : Byte)
  /-- 8XY0, `LD Vx, Vy` -/
  | ldReg (x y : Reg)
  /-- 8XY1, `OR Vx, Vy` -/
  | orReg (x y : Reg)
  /-- 8XY2, `AND Vx, Vy` -/
  | andReg (x y : Reg)
  /-- 8XY3, `XOR Vx, Vy` -/
  | xorReg (x y : Reg)
  /-- 8XY4, `ADD Vx, Vy` -/
  | addReg (x y : Reg)
  /-- 8XY5, `SUB Vx, Vy` -/
  | sub (x y : Reg)
  /-- 8XY6, `SHR Vx, Vy` -/
  | shr (x y : Reg)
  /-- 8XY7, `SUBN Vx, Vy` -/
  | subn (x y : Reg)
  /-- 8XYE, `SHL Vx, Vy` -/
  | shl (x y : Reg)
  /-- 9XY0, `SNE Vx, Vy` -/
  | sneReg (x y : Reg)
  /-- ANNN, `LD I, nnn` -/
  | ldI (nnn : Imm12)
  /-- BNNN, `JP V0, nnn` (its 12 bits are X and NN in SCHIP mode, 40_control_flow.md R131) -/
  | jpV0 (nnn : Imm12)
  /-- CXNN, `RND Vx, nn` -/
  | rnd (x : Reg) (nn : Byte)
  /-- DXYN, `DRW Vx, Vy, n` -/
  | drw (x y : Reg) (n : Nibble)
  /-- EX9E, `SKP Vx` -/
  | skp (x : Reg)
  /-- EXA1, `SKNP Vx` -/
  | sknp (x : Reg)
  /-- F000 NNNN, `LDL I, nnnn` -/
  | ldlI (nnnn : Word)
  /-- F002, `AUDIO` -/
  | audio
  /-- FX01, `PLANE x`: X is a literal, not a register -/
  | plane (x : Nibble)
  /-- FX07, `LD Vx, DT` -/
  | ldVxDt (x : Reg)
  /-- FX0A, `LD Vx, K` -/
  | ldVxK (x : Reg)
  /-- FX15, `LD DT, Vx` -/
  | ldDtVx (x : Reg)
  /-- FX18, `LD ST, Vx` -/
  | ldStVx (x : Reg)
  /-- FX1E, `ADD I, Vx` -/
  | addI (x : Reg)
  /-- FX29, `LD F, Vx` -/
  | ldF (x : Reg)
  /-- FX30, `LD HF, Vx` -/
  | ldHf (x : Reg)
  /-- FX33, `LD B, Vx` -/
  | ldB (x : Reg)
  /-- FX3A, `PITCH Vx` -/
  | pitch (x : Reg)
  /-- FX55, `LD [I], Vx` -/
  | storeRegs (x : Reg)
  /-- FX65, `LD Vx, [I]` -/
  | loadRegs (x : Reg)
  /-- FX75, `LD R, Vx` -/
  | ldRVx (x : Reg)
  /-- FX85, `LD Vx, R` -/
  | ldVxR (x : Reg)
deriving DecidableEq, Repr

end Sys2Proof
end

