-- ==== Sys2Proof/WellFormed.lean ====
section
/-!
DEFINITION. Well-formed instructions. The operand types already hold every field to its width (30_encoding.md R91), and
every register selector and X = Y is legal (R97). What is left is the one reserved operand range of the spec: FX01 with
X > 3 (R102). Such an instruction decodes and executes (as a no-op with a warning, 41_framebuffer.md R158); it is only
not well formed as a request to select planes. No statement about decoding or stepping shuts it out.
-/

namespace Sys2Proof

/-- No reserved operand value (30_encoding.md R102). -/
def Instr.wellFormed : Instr → Bool
  | .scd _ => true
  | .scu _ => true
  | .cls => true
  | .ret => true
  | .scr => true
  | .scl => true
  | .exit => true
  | .low => true
  | .high => true
  | .jp _ => true
  | .call _ => true
  | .seImm _ _ => true
  | .sneImm _ _ => true
  | .seReg _ _ => true
  | .save _ _ => true
  | .load _ _ => true
  | .ldImm _ _ => true
  | .addImm _ _ => true
  | .ldReg _ _ => true
  | .orReg _ _ => true
  | .andReg _ _ => true
  | .xorReg _ _ => true
  | .addReg _ _ => true
  | .sub _ _ => true
  | .shr _ _ => true
  | .subn _ _ => true
  | .shl _ _ => true
  | .sneReg _ _ => true
  | .ldI _ => true
  | .jpV0 _ => true
  | .rnd _ _ => true
  | .drw _ _ _ => true
  | .skp _ => true
  | .sknp _ => true
  | .ldlI _ => true
  | .audio => true
  | .plane x => x.toNat ≤ 3
  | .ldVxDt _ => true
  | .ldVxK _ => true
  | .ldDtVx _ => true
  | .ldStVx _ => true
  | .addI _ => true
  | .ldF _ => true
  | .ldHf _ => true
  | .ldB _ => true
  | .pitch _ => true
  | .storeRegs _ => true
  | .loadRegs _ => true
  | .ldRVx _ => true
  | .ldVxR _ => true

/-- The same as a proposition. -/
abbrev Instr.WellFormed (i : Instr) : Prop := i.wellFormed = true

end Sys2Proof
end

