-- ==== Sys2Proof/Decode.lean ====
section
/-!
DEFINITION. The decoder, total on every list of bytes, and after it the encoder, both from 30_encoding.md R90 to R101.
Decoding does not depend on MODE, on a register or on the second word (R96; 40_control_flow.md R121).
-/

namespace Sys2Proof

/-- Four nibbles, most significant first, as a word (30_encoding.md R91). -/
def nibbles (a b c d : Nibble) : Word := a ++ b ++ c ++ d

/-- Two bytes, the one at the lower address first, as a word (20_memory.md R64). -/
def bigEndian (hi lo : Byte) : Word := hi ++ lo

/-- Bits 15:8 of a word, the byte at the lower address. -/
def hiByte (w : Word) : Byte := w.extractLsb' 8 8

/-- Bits 7:0 of a word, the byte at the higher address. -/
def loByte (w : Word) : Byte := w.extractLsb' 0 8

/-- N1, bits 15:12 of the first word (30_encoding.md R91). -/
def fieldN1 (op : Word) : Nibble := op.extractLsb' 12 4

/-- N2, bits 11:8: the X field. -/
def fieldX (op : Word) : Nibble := op.extractLsb' 8 4

/-- N3, bits 7:4: the Y field. -/
def fieldY (op : Word) : Nibble := op.extractLsb' 4 4

/-- N4, bits 3:0. -/
def fieldN (op : Word) : Nibble := op.extractLsb' 0 4

/-- A register selector from its field. -/
def regOf (f : Nibble) : Reg := f.toFin

/-- The field of a register selector. -/
def ofReg (r : Reg) : Nibble := BitVec.ofFin r

/-- An 8-bit literal from its two nibbles, `B2 = (N3<<4)|N4`. -/
def immOf (c d : Nibble) : Byte := c ++ d

/-- The 12-bit literal `NNN = op & 0x0FFF`. -/
def addrOf (b c d : Nibble) : Imm12 := b ++ c ++ d

/-- The upper nibble of an 8-bit literal. -/
def immHi (nn : Byte) : Nibble := nn.extractLsb' 4 4

/-- The lower nibble of an 8-bit literal. -/
def immLo (nn : Byte) : Nibble := nn.extractLsb' 0 4

/-- Bits 11:8 of a 12-bit literal (the X of BXNN, 40_control_flow.md R131). -/
def addrX (nnn : Imm12) : Nibble := nnn.extractLsb' 8 4

/-- Bits 7:4 of a 12-bit literal. -/
def addrY (nnn : Imm12) : Nibble := nnn.extractLsb' 4 4

/-- Bits 3:0 of a 12-bit literal. -/
def addrN (nnn : Imm12) : Nibble := nnn.extractLsb' 0 4

/-- Bits 7:0 of a 12-bit literal (the NN of BXNN, 40_control_flow.md R131). -/
def addrNN (nnn : Imm12) : Byte := nnn.extractLsb' 0 8

/-- The words 0NNN (30_encoding.md R94 rows 1 to 9, R101 (a)). -/
def decode0 (b c d : Nibble) : Option Instr :=
  match b, c, d with
  | 0x0#4, 0xC#4, n => some (.scd n)
  | 0x0#4, 0xD#4, n => some (.scu n)
  | 0x0#4, 0xE#4, 0x0#4 => some .cls
  | 0x0#4, 0xE#4, 0xE#4 => some .ret
  | 0x0#4, 0xF#4, 0xB#4 => some .scr
  | 0x0#4, 0xF#4, 0xC#4 => some .scl
  | 0x0#4, 0xF#4, 0xD#4 => some .exit
  | 0x0#4, 0xF#4, 0xE#4 => some .low
  | 0x0#4, 0xF#4, 0xF#4 => some .high
  | _, _, _ => none

/-- The words 5XYn (rows 14 to 16, R101 (b)). -/
def decode5 (x y : Reg) (d : Nibble) : Option Instr :=
  match d with
  | 0x0#4 => some (.seReg x y)
  | 0x2#4 => some (.save x y)
  | 0x3#4 => some (.load x y)
  | _ => none

/-- The words 8XYn (rows 19 to 27, R101 (c)). -/
def decode8 (x y : Reg) (d : Nibble) : Option Instr :=
  match d with
  | 0x0#4 => some (.ldReg x y)
  | 0x1#4 => some (.orReg x y)
  | 0x2#4 => some (.andReg x y)
  | 0x3#4 => some (.xorReg x y)
  | 0x4#4 => some (.addReg x y)
  | 0x5#4 => some (.sub x y)
  | 0x6#4 => some (.shr x y)
  | 0x7#4 => some (.subn x y)
  | 0xE#4 => some (.shl x y)
  | _ => none

/-- The words 9XYn (row 28, R101 (d)). -/
def decode9 (x y : Reg) (d : Nibble) : Option Instr :=
  match d with
  | 0x0#4 => some (.sneReg x y)
  | _ => none

/-- The words EXnn (rows 33 and 34, R101 (e)). -/
def decodeE (x : Reg) (c d : Nibble) : Option Instr :=
  match c, d with
  | 0x9#4, 0xE#4 => some (.skp x)
  | 0xA#4, 0x1#4 => some (.sknp x)
  | _, _ => none

/-- The words FXnn of two bytes (rows 36 to 50, R101 (f)); the word F000 is four bytes long and is taken before. -/
def decodeF (b c d : Nibble) : Option Instr :=
  match c, d with
  | 0x0#4, 0x1#4 => some (.plane b)
  | 0x0#4, 0x2#4 => if b = 0x0#4 then some .audio else none
  | 0x0#4, 0x7#4 => some (.ldVxDt (regOf b))
  | 0x0#4, 0xA#4 => some (.ldVxK (regOf b))
  | 0x1#4, 0x5#4 => some (.ldDtVx (regOf b))
  | 0x1#4, 0x8#4 => some (.ldStVx (regOf b))
  | 0x1#4, 0xE#4 => some (.addI (regOf b))
  | 0x2#4, 0x9#4 => some (.ldF (regOf b))
  | 0x3#4, 0x0#4 => some (.ldHf (regOf b))
  | 0x3#4, 0x3#4 => some (.ldB (regOf b))
  | 0x3#4, 0xA#4 => some (.pitch (regOf b))
  | 0x5#4, 0x5#4 => some (.storeRegs (regOf b))
  | 0x6#4, 0x5#4 => some (.loadRegs (regOf b))
  | 0x7#4, 0x5#4 => some (.ldRVx (regOf b))
  | 0x8#4, 0x5#4 => some (.ldVxR (regOf b))
  | _, _ => none

/-- The two-byte instruction with nibbles N1 to N4, if there is one (30_encoding.md R94). -/
def decodeNibbles (a b c d : Nibble) : Option Instr :=
  match a with
  | 0x0#4 => decode0 b c d
  | 0x1#4 => some (.jp (addrOf b c d))
  | 0x2#4 => some (.call (addrOf b c d))
  | 0x3#4 => some (.seImm (regOf b) (immOf c d))
  | 0x4#4 => some (.sneImm (regOf b) (immOf c d))
  | 0x5#4 => decode5 (regOf b) (regOf c) d
  | 0x6#4 => some (.ldImm (regOf b) (immOf c d))
  | 0x7#4 => some (.addImm (regOf b) (immOf c d))
  | 0x8#4 => decode8 (regOf b) (regOf c) d
  | 0x9#4 => decode9 (regOf b) (regOf c) d
  | 0xA#4 => some (.ldI (addrOf b c d))
  | 0xB#4 => some (.jpV0 (addrOf b c d))
  | 0xC#4 => some (.rnd (regOf b) (immOf c d))
  | 0xD#4 => some (.drw (regOf b) (regOf c) d)
  | 0xE#4 => decodeE (regOf b) c d
  | _ => decodeF b c d

/-- The two-byte instruction of a first word other than F000, if there is one. -/
def decodeShort (op : Word) : Option Instr :=
  decodeNibbles (fieldN1 op) (fieldX op) (fieldY op) (fieldN op)

/-- What the decoder answers: an instruction and the bytes after it, or the reason by name. -/
inductive Decoded where
  /-- An instruction of the table, and the bytes after its own. -/
  | instr (i : Instr) (rest : List Byte)
  /-- The first word matches no row (30_encoding.md R100): the machine executes it as a 2-byte no-op with a warning. -/
  | unknownOpcode (op : Word) (rest : List Byte)
  /-- Fewer bytes than the instruction has; the machine's fetch always supplies four. -/
  | truncated
deriving DecidableEq, Repr

/-- The second word of the four-byte instruction F000 NNNN, and what follows it (30_encoding.md R90). -/
def decodeLong : List Byte → Decoded
  | b2 :: b3 :: rest => .instr (.ldlI (bigEndian b2 b3)) rest
  | _ => .truncated

/-- The first word F000 makes a four-byte instruction, every other word a two-byte one (30_encoding.md R90). -/
def decodeFrom (op : Word) (rest : List Byte) : Decoded :=
  if op = 0xF000#16 then decodeLong rest
  else
    match decodeShort op with
    | some i => .instr i rest
    | none => .unknownOpcode op rest

/-- What a list of bytes decodes to, the byte at the lowest address first (20_memory.md R64). -/
def decode : List Byte → Decoded
  | hi :: lo :: rest => decodeFrom (bigEndian hi lo) rest
  | _ => .truncated

/-- The words of an instruction, from the encodings of 30_encoding.md R94. -/
def encode : Instr → List Word
  | .scd n => [nibbles 0x0 0x0 0xC n]
  | .scu n => [nibbles 0x0 0x0 0xD n]
  | .cls => [0x00E0]
  | .ret => [0x00EE]
  | .scr => [0x00FB]
  | .scl => [0x00FC]
  | .exit => [0x00FD]
  | .low => [0x00FE]
  | .high => [0x00FF]
  | .jp nnn => [nibbles 0x1 (addrX nnn) (addrY nnn) (addrN nnn)]
  | .call nnn => [nibbles 0x2 (addrX nnn) (addrY nnn) (addrN nnn)]
  | .seImm x nn => [nibbles 0x3 (ofReg x) (immHi nn) (immLo nn)]
  | .sneImm x nn => [nibbles 0x4 (ofReg x) (immHi nn) (immLo nn)]
  | .seReg x y => [nibbles 0x5 (ofReg x) (ofReg y) 0x0]
  | .save x y => [nibbles 0x5 (ofReg x) (ofReg y) 0x2]
  | .load x y => [nibbles 0x5 (ofReg x) (ofReg y) 0x3]
  | .ldImm x nn => [nibbles 0x6 (ofReg x) (immHi nn) (immLo nn)]
  | .addImm x nn => [nibbles 0x7 (ofReg x) (immHi nn) (immLo nn)]
  | .ldReg x y => [nibbles 0x8 (ofReg x) (ofReg y) 0x0]
  | .orReg x y => [nibbles 0x8 (ofReg x) (ofReg y) 0x1]
  | .andReg x y => [nibbles 0x8 (ofReg x) (ofReg y) 0x2]
  | .xorReg x y => [nibbles 0x8 (ofReg x) (ofReg y) 0x3]
  | .addReg x y => [nibbles 0x8 (ofReg x) (ofReg y) 0x4]
  | .sub x y => [nibbles 0x8 (ofReg x) (ofReg y) 0x5]
  | .shr x y => [nibbles 0x8 (ofReg x) (ofReg y) 0x6]
  | .subn x y => [nibbles 0x8 (ofReg x) (ofReg y) 0x7]
  | .shl x y => [nibbles 0x8 (ofReg x) (ofReg y) 0xE]
  | .sneReg x y => [nibbles 0x9 (ofReg x) (ofReg y) 0x0]
  | .ldI nnn => [nibbles 0xA (addrX nnn) (addrY nnn) (addrN nnn)]
  | .jpV0 nnn => [nibbles 0xB (addrX nnn) (addrY nnn) (addrN nnn)]
  | .rnd x nn => [nibbles 0xC (ofReg x) (immHi nn) (immLo nn)]
  | .drw x y n => [nibbles 0xD (ofReg x) (ofReg y) n]
  | .skp x => [nibbles 0xE (ofReg x) 0x9 0xE]
  | .sknp x => [nibbles 0xE (ofReg x) 0xA 0x1]
  | .ldlI nnnn => [0xF000, nnnn]
  | .audio => [0xF002]
  | .plane x => [nibbles 0xF x 0x0 0x1]
  | .ldVxDt x => [nibbles 0xF (ofReg x) 0x0 0x7]
  | .ldVxK x => [nibbles 0xF (ofReg x) 0x0 0xA]
  | .ldDtVx x => [nibbles 0xF (ofReg x) 0x1 0x5]
  | .ldStVx x => [nibbles 0xF (ofReg x) 0x1 0x8]
  | .addI x => [nibbles 0xF (ofReg x) 0x1 0xE]
  | .ldF x => [nibbles 0xF (ofReg x) 0x2 0x9]
  | .ldHf x => [nibbles 0xF (ofReg x) 0x3 0x0]
  | .ldB x => [nibbles 0xF (ofReg x) 0x3 0x3]
  | .pitch x => [nibbles 0xF (ofReg x) 0x3 0xA]
  | .storeRegs x => [nibbles 0xF (ofReg x) 0x5 0x5]
  | .loadRegs x => [nibbles 0xF (ofReg x) 0x6 0x5]
  | .ldRVx x => [nibbles 0xF (ofReg x) 0x7 0x5]
  | .ldVxR x => [nibbles 0xF (ofReg x) 0x8 0x5]

/-- Words as the RAM holds them, each big-endian, the first at the lowest address (20_memory.md R64, R65). -/
def bytesOfWords (ws : List Word) : List Byte := ws.flatMap fun w => [hiByte w, loByte w]

/-- The bytes of an instruction, in address order. -/
def encodeBytes (i : Instr) : List Byte := bytesOfWords (encode i)

/-- The four bytes of an instruction whose table bits are the low `nbits` bits of `w`: the first word is bits 15..0, the
second bits 31..16, and every bit above `nbits` is 0. -/
def tableBytes (nbits w : Nat) : List Byte :=
  let bits := w % 2 ^ nbits
  bytesOfWords [BitVec.ofNat 16 bits, BitVec.ofNat 16 (bits / 2 ^ 16)]

/-- The instruction the decoder reads from an instruction whose bits, as spec/opcode_table.json numbers them, are `w`. -/
def decodeTableWord (nbits w : Nat) : Option Instr :=
  match decode (tableBytes nbits w) with
  | .instr i _ => some i
  | .unknownOpcode _ _ => none
  | .truncated => none

end Sys2Proof
end

