-- ==== Sys2Proof/Config.lean ====
section
/-!
DEFINITION. What is fixed outside the core: the mode's three values, the font parameters, the environment's inputs of one iteration, and the
free values, which are constants without a body, so that nothing can be proved of what they are.
-/

namespace Sys2Proof

/-- The instruction-set variant, an input of the core that is constant for a run (10_state.md R39). -/
inductive Mode where
  | chip8
  | schip
  | xochip
deriving DecidableEq, Repr, Inhabited

/-- The parameters that fix the fonts' place and the low font's bytes (00_scope.md R6): HIRES_FONT_OFFSET and FONT_LO.
They are arguments of the machine, constant for a run; FONT_HI, which has no default, is the free value
`Config.fontHi` below. -/
structure Params where
  /-- HIRES_FONT_OFFSET (20_memory.md R71). -/
  hiresFontOffset : BitVec 16
  /-- FONT_LO: 16 glyphs of 5 bytes (20_memory.md R72). -/
  fontLo : Vector Byte 80
deriving DecidableEq, Repr

/-- What the spec requires of HIRES_FONT_OFFSET, whatever value is chosen: the 100 bytes of the high font end inside the
interpreter area and do not meet the low font's 0x0050..0x009F (20_memory.md R71). -/
abbrev Params.Legal (p : Params) : Prop :=
  p.hiresFontOffset.toNat + 99 ≤ 0x01FF ∧
    (p.hiresFontOffset.toNat + 99 < 0x0050 ∨ 0x009F < p.hiresFontOffset.toNat)

/-- The host calls whose failure ends the run at a tick (60_exceptions.md R306). -/
inductive HostCall where
  | display
  | audio
deriving DecidableEq, Repr, Inhabited

/-- What the environment supplies to one run-loop iteration (00_scope.md R6, R8; 60_exceptions.md R285, R300, R306). -/
structure Input where
  /-- `keys_in`: key i is down. -/
  keys : Vector Bool 16
  /-- `pause_edge`. -/
  pauseEdge : Bool
  /-- `quit_edge`. -/
  quitEdge : Bool
  /-- `tick_due`: 1/60 s has passed since the previous tick (60_exceptions.md R301). -/
  tickDue : Bool
  /-- The host cannot write the save file in this iteration (STORAGE_WRITE_FAILED, 60_exceptions.md R285). -/
  storageFails : Bool
  /-- The host call that fails if this iteration's tick makes it (`host_error`, 60_exceptions.md R306). -/
  hostError : Option HostCall
deriving DecidableEq, Repr, Inhabited

/-- The bytes of the high font, FONT_HI: an open parameter without default (20_memory.md R73; log 5). The argument is the
byte's offset, 0..99, from the start of the font. -/
opaque Config.fontHi : Nat → Byte

/-- The random source of RND: a free byte for each draw (42_alu.md R190; log 7). -/
opaque Config.rnd : Nat → Byte

/-- Which of several keys released in one iteration FX0A takes: free among them (44_input.md R223; log 8). -/
opaque Config.keyChoice : Nat → Nat

/-- The environment's inputs past those the state lists: free (00_scope.md R6; log 6). -/
opaque Config.input : Nat → Input

end Sys2Proof
end

