-- ==== Sys2Proof/Machine/Fonts.lean ====
section
/-!
DEFINITION. Where the low font stands, and the defaults the spec gives the two font parameters (20_memory.md R70 to R72).
-/

namespace Sys2Proof.Machine

/-- FONT_OFFSET (20_memory.md R70). -/
def fontOffset : Word := 0x0050

/-- The default of HIRES_FONT_OFFSET (20_memory.md R71; log 3). -/
def defaultHiresFontOffset : Word := 0x00A0

/-- The bytes of the default of FONT_LO, glyph by glyph (20_memory.md R72; log 4). -/
def fontLoBytes : List Byte :=
  [0xF0, 0x90, 0x90, 0x90, 0xF0, 0x20, 0x60, 0x20, 0x20, 0x70] ++
  [0xF0, 0x10, 0xF0, 0x80, 0xF0, 0xF0, 0x10, 0xF0, 0x10, 0xF0] ++
  [0x90, 0x90, 0xF0, 0x10, 0x10, 0xF0, 0x80, 0xF0, 0x10, 0xF0] ++
  [0xF0, 0x80, 0xF0, 0x90, 0xF0, 0xF0, 0x10, 0x20, 0x40, 0x40] ++
  [0xF0, 0x90, 0xF0, 0x90, 0xF0, 0xF0, 0x90, 0xF0, 0x10, 0xF0] ++
  [0xF0, 0x90, 0xF0, 0x90, 0x90, 0xE0, 0x90, 0xE0, 0x90, 0xE0] ++
  [0xF0, 0x80, 0x80, 0x80, 0xF0, 0xE0, 0x90, 0x90, 0x90, 0xE0] ++
  [0xF0, 0x80, 0xF0, 0x80, 0xF0, 0xF0, 0x80, 0xF0, 0x80, 0x80]

/-- The default of FONT_LO. -/
def defaultFontLo : Vector Byte 80 := ⟨⟨fontLoBytes⟩, rfl⟩

/-- Both parameters at the spec's defaults. -/
def defaultParams : Params where
  hiresFontOffset := defaultHiresFontOffset
  fontLo := defaultFontLo

end Sys2Proof.Machine
end

