-- ==== Sys2Proof/Machine/State.lean ====
section
/-!
DEFINITION. The state of the machine as plain data, the reasons a step can stop, and the state after reset
(10_state.md R20 to R42).
-/

namespace Sys2Proof.Machine

/-- RAM as the list of the bytes that differ from the reset contents, by rising address (20_memory.md R70, R74). -/
abbrev Memory := List Host.Cell

/-- One plane of the framebuffer: 64 rows of 128 one-bit cells; cell (x, y) is bit x of row y (10_state.md R28). -/
abbrev Plane := Vector (BitVec 128) 64

/-- The value of `fault` when it is set: which stack fault, and the address of the faulting instruction
(60_exceptions.md R280). -/
inductive StackFault where
  /-- Code 1, STACK_OVERFLOW, recorded by CALL with `sp = 15`. -/
  | overflow (address : Word)
  /-- Code 2, STACK_UNDERFLOW, recorded by RET with `sp = 0`. -/
  | underflow (address : Word)
deriving DecidableEq, Repr

/-- The non-fatal warnings (60_exceptions.md R285). -/
inductive Warning where
  | unknownOpcode (op : Word)
  | planeRange (x : Nibble)
  | storageWriteFailed
deriving DecidableEq, Repr

/-- What the core emits to the host inside an iteration (00_scope.md R9). -/
inductive Event where
  /-- A warning for the log. -/
  | warn (w : Warning)
  /-- `set_pitch` (46_timers_audio.md R254). -/
  | setPitch (p : Byte)
  /-- `load_pattern` (46_timers_audio.md R253). -/
  | loadPattern (pattern : Vector Byte 16)
  /-- `persist` of the flag bytes given (47_storage.md R266). -/
  | persist (bytes : List Byte)
  /-- One frame of composed values, row-major, origin top-left (41_framebuffer.md R160). -/
  | frame (pixels : List (BitVec 2))
deriving DecidableEq, Repr

/-- Everything the spec gives the machine (10_state.md and the parameters of 00_scope.md R6), and four fields of the model's own at the end. -/
structure State where
  /-- MODE: constant from reset to the end of the run (10_state.md R39). -/
  mode : Mode
  /-- HIRES_FONT_OFFSET and FONT_LO: constant from reset to the end of the run (00_scope.md R6). -/
  params : Params
  /-- `V[0]`..`V[15]` (R20). -/
  v : Vector Byte 16
  /-- The program counter (R23). -/
  pc : Word
  /-- The index register I (R25). -/
  idx : Word
  /-- The top-occupied slot of the return stack, 0 when empty (R26). -/
  sp : Fin 16
  /-- The return stack (R26). -/
  stack : Vector Word 16
  /-- RAM (R27). -/
  ram : Memory
  /-- `plane[0]` (R28). -/
  plane0 : Plane
  /-- `plane[1]` (R28). -/
  plane1 : Plane
  /-- The framebuffer changed since the last frame (R29). -/
  dirty : Bool
  /-- `plane_mask`: bit p selects plane p (R30). -/
  planeMask : BitVec 2
  /-- Native 128×64 resolution (R31). -/
  hires : Bool
  /-- `delay_timer` (R32). -/
  delayTimer : Byte
  /-- `sound_timer` (R32). -/
  soundTimer : Byte
  /-- `cycle_counter`: steps completed since reset (R33). -/
  cycleCounter : BitVec 64
  /-- `audio_pattern` (R34). -/
  audioPattern : Vector Byte 16
  /-- `pitch` (R34). -/
  pitch : Byte
  /-- The tone level (R34). -/
  audioOn : Bool
  /-- The RPL flag store (R35). -/
  rpl : Vector Byte 16
  /-- The key snapshot of the current iteration (R36). -/
  keys : Vector Bool 16
  /-- The key snapshot of the iteration before (R36). -/
  prevKeys : Vector Bool 16
  /-- Dispatch is halted (R37). -/
  paused : Bool
  /-- The run ends, or has ended, normally (R37). -/
  finished : Bool
  /-- The stack fault that ended the run, if one did (R38). -/
  fault : Option StackFault
  /-- MODEL'S OWN (log 20): a failed display or audio call ended the run (60_exceptions.md R306). -/
  hostError : Bool
  /-- MODEL'S OWN (log 6): the environment's inputs already given for the coming iterations, oldest first. -/
  inputs : List Input
  /-- MODEL'S OWN (logs 6, 7, 8): picks the next free value. -/
  fresh : Nat
  /-- MODEL'S OWN (log 21): what the latest iteration emitted, in order. -/
  events : List Event
deriving DecidableEq, Repr

/-- Why the machine as a whole stops. -/
inductive Fault where
  /-- Answered by `step` alone, on a state whose run has ended: `fault` is set, `finished` is set, or a host call failed.
  The spec takes no iteration there (60_exceptions.md R283, R300, R305, R306). Safe: nothing is claimed of a state after
  the end. -/
  | runEnded
deriving DecidableEq, Repr

/-- Why an instruction has no meaning. -/
inductive Refusal where
  /-- An arm of `exec` without a meaning; no arm is left in this state. Safe: nothing is claimed of such an instruction. -/
  | notModelled (mnemonic : String)
deriving DecidableEq, Repr

/-- What a step or a meaning answers. -/
abbrev Result := Host.Outcome State Fault Refusal

/-- The reset state of 10_state.md R42 for given font parameters (00_scope.md R6), MODE (R39) and RPL_INIT (R35), which
are inputs and not reset. -/
def State.resetWith (params : Params) (mode : Mode) (rplInit : Vector Byte 16) : State where
  mode := mode
  params := params
  v := Vector.replicate 16 0
  pc := 0x0200
  idx := 0
  sp := 0
  stack := Vector.replicate 16 0
  ram := []
  plane0 := Vector.replicate 64 0
  plane1 := Vector.replicate 64 0
  dirty := false
  planeMask := 1
  hires := false
  delayTimer := 0
  soundTimer := 0
  cycleCounter := 0
  audioPattern := Vector.replicate 16 0
  pitch := 0
  audioOn := false
  rpl := rplInit
  keys := Vector.replicate 16 false
  prevKeys := Vector.replicate 16 false
  paused := false
  finished := false
  fault := none
  hostError := false
  inputs := []
  fresh := 0
  events := []

/-- The machine right after reset, with the font parameters at the spec's defaults (logs 3, 4), in CHIP8 mode (DESIGN
CHOICE, log 1), with an absent flag-store entry (DESIGN CHOICE, log 2). -/
def State.reset : State := State.resetWith defaultParams .chip8 (Vector.replicate 16 0)

end Sys2Proof.Machine
end

