-- ==== Sys2Proof/Machine/Ops.lean ====
section
/-!
DEFINITION. The named operations over memory, the program counter, the return stack, the fault register and the events,
each used by every meaning that needs it.
-/

namespace Sys2Proof.Machine

/-! ## Reset contents of RAM (20_memory.md R70 to R74) -/

/-- What an address that no entry of the memory lists reads as: the reset contents under the machine's font parameters
(20_memory.md R70, R74). -/
def initialByte (p : Params) (a : Nat) : Byte :=
  if fontOffset.toNat ≤ a ∧ a < fontOffset.toNat + 80 then p.fontLo.getD (a - fontOffset.toNat) 0
  else if p.hiresFontOffset.toNat ≤ a ∧ a < p.hiresFontOffset.toNat + 100 then
    Config.fontHi (a - p.hiresFontOffset.toNat)
  else 0

/-! ## The RAM port (20_memory.md R60 to R62) -/

/-- The byte at an address. -/
def Memory.read (p : Params) : Memory → Nat → Byte
  | [], a => initialByte p a
  | (k, b) :: rest, a => if k = a then b else Memory.read p rest a

/-- Write one byte, keeping the canonical form: rising addresses, and no entry for a byte at its reset contents. -/
def Memory.write (p : Params) : Memory → Nat → Byte → Memory
  | [], a, b => if b = initialByte p a then [] else [(a, b)]
  | (k, c) :: rest, a, b =>
    if a < k then (if b = initialByte p a then (k, c) :: rest else (a, b) :: (k, c) :: rest)
    else if a = k then (if b = initialByte p a then rest else (a, b) :: rest)
    else (k, c) :: Memory.write p rest a b

/-- The canonical form: addresses inside the RAM and strictly rising, no entry equal to the reset contents. -/
abbrev Memory.wf (p : Params) (m : Memory) : Prop :=
  m.Pairwise (fun c d => c.1 < d.1) ∧ ∀ c ∈ m, c.1 < 65536 ∧ c.2 ≠ initialByte p c.1

/-- `MemRead(a, n)`: the bytes at `a`, `a+1`, ..., each address modulo 65536 (20_memory.md R61). -/
def Memory.readBlock (p : Params) (m : Memory) (a : Word) : Nat → List Byte
  | 0 => []
  | n + 1 => Memory.read p m a.toNat :: Memory.readBlock p m (a + 1) n

/-- `MemWrite(a, n, v)`: the bytes of the list to `a`, `a+1`, ..., in rising order, each address modulo 65536
(20_memory.md R62). -/
def Memory.writeBlock (p : Params) (m : Memory) (a : Word) : List Byte → Memory
  | [] => m
  | b :: rest => Memory.writeBlock p (Memory.write p m a.toNat b) (a + 1) rest

/-- The byte at a RAM address. -/
def State.byteAt (s : State) (a : Word) : Byte := s.ram.read s.params a.toNat

/-- The big-endian word at a RAM address (20_memory.md R64, R65). -/
def State.wordAt (s : State) (a : Word) : Word := bigEndian (s.byteAt a) (s.byteAt (a + 1))

/-- Store a list of bytes at a RAM address. -/
def State.storeBytes (s : State) (a : Word) (bytes : List Byte) : State :=
  { s with ram := s.ram.writeBlock s.params a bytes }

/-! ## The program counter (10_state.md R23, R24) -/

/-- `pc <- next`: on to the following two-byte instruction, modulo 65536. -/
def State.advance (s : State) : State := { s with pc := s.pc + 2 }

/-- `pc <- target` (40_control_flow.md R126: no target is checked). -/
def State.jump (s : State) (target : Word) : State := { s with pc := target }

/-- The skip action common to the six skip instructions: over the whole of a following F000 NNNN
(40_control_flow.md R124). -/
def State.skipIf (s : State) (skip : Bool) : State :=
  if skip then
    (if s.wordAt (s.pc + 2) = 0xF000#16 then s.jump (s.pc + 6) else s.jump (s.pc + 4))
  else s.advance

/-- The four bytes at the program counter: enough for every instruction (30_encoding.md R90). Reads have no effect
(20_memory.md R60), so reading bytes a shorter instruction does not have changes nothing. -/
def State.fetchBytes (s : State) : List Byte := s.ram.readBlock s.params s.pc 4

/-! ## Faults and events -/

/-- TAKING AN EXCEPTION: `raise`. The fault is recorded and nothing else changes: `pc` keeps the faulting instruction's
address, nothing is saved, there is no handler and no vector (60_exceptions.md R283). There is no return from it: no
instruction resumes after a fault, only reset clears `fault` (60_exceptions.md R284). -/
def State.raiseFault (s : State) (f : StackFault) : State := { s with fault := some f }

/-- The cause code of a fault (60_exceptions.md R280). -/
def StackFault.code : StackFault → Nat
  | .overflow _ => 1
  | .underflow _ => 2

/-- The address a fault records (60_exceptions.md R280). -/
def StackFault.address : StackFault → Word
  | .overflow a => a
  | .underflow a => a

/-- Emit an output or a warning (00_scope.md R9, 60_exceptions.md R285). -/
def State.emit (s : State) (e : Event) : State := { s with events := s.events ++ [e] }

/-- The run has ended: no iteration is taken (60_exceptions.md R283, R300, R305, R306). -/
def State.ended (s : State) : Bool := s.fault.isSome || s.finished || s.hostError

/-! ## Placing an instruction where the next step fetches -/

/-- An iteration's inputs in which the host does nothing: no edge, no tick, no failure, and the keys as given. -/
def quietInput (keys : Vector Bool 16) : Input where
  keys := keys
  pauseEdge := false
  quitEdge := false
  tickDue := false
  storageFails := false
  hostError := none

/-- Store an instruction's bytes at the program counter and make the very next iteration take a step: the run has not
ended, it is not paused, and the host's next input is a quiet one that leaves the keys as they are (log 22). -/
def State.placeAtFetch (s : State) (bytes : List Byte) : State :=
  { s.storeBytes s.pc bytes with
      paused := false, finished := false, fault := none, hostError := false
      inputs := quietInput s.keys :: s.inputs }

end Sys2Proof.Machine
end

