-- ==== Sys2Proof/Machine/Quirks.lean ====
section
/-!
DEFINITION. The quirk mux: the seven signals of 10_state.md R40, each derived from MODE alone. No other behaviour
depends on MODE.
-/

namespace Sys2Proof.Machine

/-- Q_VF_RESET: OR, AND, XOR write VF with 0 after the result. -/
def qVfReset : Mode → Bool
  | .chip8 => true
  | .schip => false
  | .xochip => false

/-- Q_SHIFT_VY: SHR, SHL first copy VY into VX. -/
def qShiftVy : Mode → Bool
  | .chip8 => true
  | .schip => false
  | .xochip => true

/-- Q_MEM_INC: FX55, FX65 add X+1 to `idx`. -/
def qMemInc : Mode → Bool
  | .chip8 => true
  | .schip => false
  | .xochip => true

/-- Q_WRAP: DRW wraps pixel positions instead of clipping. -/
def qWrap : Mode → Bool
  | .chip8 => false
  | .schip => false
  | .xochip => true

/-- Q_DISP_WAIT: DRW retries unless `cycle_counter mod 4 = 0`. -/
def qDispWait : Mode → Bool
  | .chip8 => true
  | .schip => false
  | .xochip => false

/-- Q_JUMP_VX: BNNN is read as BXNN, with target `NN + VX`. -/
def qJumpVx : Mode → Bool
  | .chip8 => false
  | .schip => true
  | .xochip => false

/-- Q_FLAGS: the number of RPL flags FX75, FX85 may reach. -/
def qFlags : Mode → Nat
  | .chip8 => 0
  | .schip => 8
  | .xochip => 16

end Sys2Proof.Machine
end

