-- ==== Sys2Proof/Machine/Operands.lean ====
section
/-!
DEFINITION. The operand forms: registers, literals, glyph addresses, keys, register ranges.
-/

namespace Sys2Proof.Machine

/-- `V[r]` (10_state.md R20). -/
def State.reg (s : State) (r : Reg) : Byte := s.v[r.val]

/-- `V[r] <- b`. -/
def State.setReg (s : State) (r : Reg) (b : Byte) : State := { s with v := s.v.set r.val b }

/-- `idx <- w`. -/
def State.setIdx (s : State) (w : Word) : State := { s with idx := w }

/-- `zext_16` of an 8-bit value (00_scope.md R13). -/
def zext8 (b : Byte) : Word := b.setWidth 16

/-- `zext_16` of the 12-bit literal NNN (30_encoding.md R93). -/
def zext12 (nnn : Imm12) : Word := nnn.setWidth 16

/-- The low 4 bits of a register, as a number 0..15 (44_input.md R220; 45_memory_index.md R233, R234). -/
def lowNibble (b : Byte) : Fin 16 := (b.extractLsb' 0 4).toFin

/-- The address of the low glyph of a digit: `0x0050 + 5 * digit` (45_memory_index.md R233). -/
def lowGlyph (digit : Fin 16) : Word := fontOffset + BitVec.ofNat 16 (5 * digit.val)

/-- The address of the high glyph of a digit under HIRES_FONT_OFFSET, past the table for 10..15 (45_memory_index.md
R234). -/
def highGlyph (offset : Word) (digit : Fin 16) : Word := offset + BitVec.ofNat 16 (10 * digit.val)

/-- `keys[i]` (44_input.md R220). -/
def State.key (s : State) (i : Fin 16) : Bool := s.keys[i.val]

/-- The keys released since the previous iteration, in rising order (44_input.md R223). -/
def State.releasedKeys (s : State) : List (Fin 16) :=
  (List.finRange 16).filter fun i => s.prevKeys[i.val] && !s.keys[i.val]

/-- The inclusive register range `V[x]`..`V[y]` in walking order, backward if `x > y` (45_memory_index.md R239). -/
def regRange (x y : Reg) : List Reg :=
  if x ≤ y then
    (List.range (y.val - x.val + 1)).map fun i => Fin.ofNat 16 (x.val + i)
  else
    (List.range (x.val - y.val + 1)).map fun i => Fin.ofNat 16 (x.val - i)

/-- Store registers to consecutive RAM cells from `idx` (45_memory_index.md R236, R237, R239). -/
def State.storeRegList (s : State) (rs : List Reg) : State := s.storeBytes s.idx (rs.map s.reg)

/-- Load registers from consecutive RAM cells, the first at `a`. -/
def State.loadRegsFrom (s : State) (a : Word) : List Reg → State
  | [] => s
  | r :: rest => State.loadRegsFrom (s.setReg r (s.byteAt a)) (a + 1) rest

/-- Load registers from consecutive RAM cells from `idx` (45_memory_index.md R236, R238, R240). -/
def State.loadRegList (s : State) (rs : List Reg) : State := s.loadRegsFrom s.idx rs

/-- `idx <- idx + X + 1` in the modes with the memory-increment quirk (45_memory_index.md R237, R238). -/
def State.memInc (s : State) (x : Reg) : State :=
  if qMemInc s.mode then s.setIdx (s.idx + BitVec.ofNat 16 (x.val + 1)) else s

/-- The effective last index of a flag-store transfer, or none where the instruction is a no-op (47_storage.md R268). -/
def flagReach (m : Mode) (x : Reg) : Option (Fin 16) :=
  if qFlags m = 0 then none else some (Fin.ofNat 16 (min x.val (qFlags m - 1)))

end Sys2Proof.Machine
end

