-- ==== Sys2Proof/Machine/Flags.lean ====
section
/-!
DEFINITION. Every computation of VF, the only flag (10_state.md R22), and the order in which a result and VF are written
(42_alu.md R181). The collision flag of DRW is computed with the draw, in Machine/Sprite.lean.
-/

namespace Sys2Proof.Machine

/-- A flag's byte: 1 or 0 (10_state.md R21). -/
def flagByte (b : Bool) : Byte := if b then 1 else 0

/-- Carry of the 9-bit sum (42_alu.md R176). -/
def carry (a b : Byte) : Bool := decide (a.toNat + b.toNat > 255)

/-- Not-borrow of `a - b`: `a ≥ b` before the operation (42_alu.md R177, R179). -/
def notBorrow (a b : Byte) : Bool := decide (b.toNat ≤ a.toNat)

/-- The bit a right shift by one moves out (42_alu.md R178). -/
def shiftedOutRight (t : Byte) : Bool := t.getLsbD 0

/-- The bit a left shift by one moves out (42_alu.md R180). -/
def shiftedOutLeft (t : Byte) : Bool := t.getLsbD 7

/-- The result first, then VF: with X = 0xF the flag is what stays (42_alu.md R181). -/
def State.setWithFlag (s : State) (x : Reg) (result : Byte) (flag : Bool) : State :=
  (s.setReg x result).setReg vf (flagByte flag)

/-- The result, then VF with 0 in the mode with Q_VF_RESET (42_alu.md R173 to R175). -/
def State.setLogic (s : State) (x : Reg) (result : Byte) : State :=
  if qVfReset s.mode then (s.setReg x result).setReg vf 0 else s.setReg x result

end Sys2Proof.Machine
end

