-- ==== Sys2Proof/Machine/Alu.lean ====
section
/-!
DEFINITION. The register file and ALU instructions (42_alu.md R170 to R190). Source operands are read before any write.
-/

namespace Sys2Proof.Machine

/-- `LD Vx, nn` (42_alu.md R170). -/
def execLdImm (x : Reg) (nn : Byte) (s : State) : Result :=
  .next (s.setReg x nn).advance

/-- `ADD Vx, nn`, no flag (42_alu.md R171). -/
def execAddImm (x : Reg) (nn : Byte) (s : State) : Result :=
  .next (s.setReg x (s.reg x + nn)).advance

/-- `LD Vx, Vy` (42_alu.md R172; PRESUMED by the spec from general knowledge, log 17). -/
def execLdReg (x y : Reg) (s : State) : Result :=
  .next (s.setReg x (s.reg y)).advance

/-- `OR Vx, Vy` (42_alu.md R173). -/
def execOr (x y : Reg) (s : State) : Result :=
  .next (s.setLogic x (s.reg x ||| s.reg y)).advance

/-- `AND Vx, Vy` (42_alu.md R174). -/
def execAnd (x y : Reg) (s : State) : Result :=
  .next (s.setLogic x (s.reg x &&& s.reg y)).advance

/-- `XOR Vx, Vy` (42_alu.md R175). -/
def execXor (x y : Reg) (s : State) : Result :=
  .next (s.setLogic x (s.reg x ^^^ s.reg y)).advance

/-- `ADD Vx, Vy` (42_alu.md R176). -/
def execAddReg (x y : Reg) (s : State) : Result :=
  .next (s.setWithFlag x (s.reg x + s.reg y) (carry (s.reg x) (s.reg y))).advance

/-- `SUB Vx, Vy` (42_alu.md R177). -/
def execSub (x y : Reg) (s : State) : Result :=
  .next (s.setWithFlag x (s.reg x - s.reg y) (notBorrow (s.reg x) (s.reg y))).advance

/-- The value a shift works on: VY under Q_SHIFT_VY, else VX (42_alu.md R178, R180). -/
def State.shiftSource (s : State) (x y : Reg) : Byte :=
  if qShiftVy s.mode then s.reg y else s.reg x

/-- `SHR Vx, Vy` (42_alu.md R178). -/
def execShr (x y : Reg) (s : State) : Result :=
  .next (s.setWithFlag x (s.shiftSource x y >>> 1) (shiftedOutRight (s.shiftSource x y))).advance

/-- `SUBN Vx, Vy` (42_alu.md R179). -/
def execSubn (x y : Reg) (s : State) : Result :=
  .next (s.setWithFlag x (s.reg y - s.reg x) (notBorrow (s.reg y) (s.reg x))).advance

/-- `SHL Vx, Vy` (42_alu.md R180). -/
def execShl (x y : Reg) (s : State) : Result :=
  .next (s.setWithFlag x (s.shiftSource x y <<< 1) (shiftedOutLeft (s.shiftSource x y))).advance

/-- `RND Vx, nn`: a fresh free byte, masked (42_alu.md R190; log 7). -/
def execRnd (x : Reg) (nn : Byte) (s : State) : Result :=
  .next { s.setReg x (Config.rnd s.fresh &&& nn) with fresh := s.fresh + 1 }.advance

end Sys2Proof.Machine
end

