-- ==== Sys2Proof/Machine/Audio.lean ====
section
/-!
DEFINITION. The timer and audio instructions (46_timers_audio.md R250 to R254, R259).
-/

namespace Sys2Proof.Machine

/-- `AUDIO`: 16 bytes from `idx` to the pattern, and to the tone generator (46_timers_audio.md R253). -/
def execAudio (s : State) : Result :=
  let pattern : Vector Byte 16 := Vector.ofFn fun i => s.byteAt (s.idx + BitVec.ofNat 16 i.val)
  .next ({ s with audioPattern := pattern }.emit (.loadPattern pattern)).advance

/-- `LD Vx, DT` (46_timers_audio.md R250; PRESUMED by the spec from general knowledge, log 17). -/
def execLdVxDt (x : Reg) (s : State) : Result :=
  .next (s.setReg x s.delayTimer).advance

/-- `LD DT, Vx` (46_timers_audio.md R251; PRESUMED by the spec from general knowledge, log 17). -/
def execLdDtVx (x : Reg) (s : State) : Result :=
  .next { s with delayTimer := s.reg x }.advance

/-- `LD ST, Vx` (46_timers_audio.md R252). -/
def execLdStVx (x : Reg) (s : State) : Result :=
  .next { s with soundTimer := s.reg x }.advance

/-- `PITCH Vx` (46_timers_audio.md R254). -/
def execPitch (x : Reg) (s : State) : Result :=
  .next ({ s with pitch := s.reg x }.emit (.setPitch (s.reg x))).advance

/-- `hz` is the tone frequency the host's generator makes from a pitch: `4000 · 2^((pitch - 64) / 48)`, the positive
real with `hz^48 = 4000^48 · 2^(pitch - 64)` (46_timers_audio.md R257). No instruction depends on it. -/
def IsToneFrequency (pitch : Byte) (hz : ℝ) : Prop :=
  0 < hz ∧ hz ^ 48 * 2 ^ 64 = 4000 ^ 48 * 2 ^ pitch.toNat

end Sys2Proof.Machine
end

