-- ==== Sys2Proof/Machine/Control.lean ====
section
/-!
DEFINITION. RET, EXIT, JP, CALL, JP V0 and the register skips (40_control_flow.md R127 to R135).
-/

namespace Sys2Proof.Machine

/-- `RET` (40_control_flow.md R129). -/
def execRet (s : State) : Result :=
  if s.sp.val = 0 then .next (s.raiseFault (.underflow s.pc))
  else .next { s with pc := s.stack[s.sp.val], sp := Fin.ofNat 16 (s.sp.val - 1) }

/-- `EXIT` (40_control_flow.md R130). -/
def execExit (s : State) : Result :=
  .next { s with finished := true }.advance

/-- `JP nnn` (40_control_flow.md R127). -/
def execJp (nnn : Imm12) (s : State) : Result :=
  .next (s.jump (zext12 nnn))

/-- `CALL nnn` (40_control_flow.md R128). -/
def execCall (nnn : Imm12) (s : State) : Result :=
  if s.sp.val = 15 then .next (s.raiseFault (.overflow s.pc))
  else
    let sp := Fin.ofNat 16 (s.sp.val + 1)
    .next { s with sp := sp, stack := s.stack.set sp.val (s.pc + 2), pc := zext12 nnn }

/-- `SE Vx, nn` (40_control_flow.md R132). -/
def execSeImm (x : Reg) (nn : Byte) (s : State) : Result :=
  .next (s.skipIf (s.reg x == nn))

/-- `SNE Vx, nn` (40_control_flow.md R133). -/
def execSneImm (x : Reg) (nn : Byte) (s : State) : Result :=
  .next (s.skipIf (s.reg x != nn))

/-- `SE Vx, Vy` (40_control_flow.md R134). -/
def execSeReg (x y : Reg) (s : State) : Result :=
  .next (s.skipIf (s.reg x == s.reg y))

/-- `SNE Vx, Vy` (40_control_flow.md R135). -/
def execSneReg (x y : Reg) (s : State) : Result :=
  .next (s.skipIf (s.reg x != s.reg y))

/-- `JP V0, nnn`, read as BXNN with target `NN + V[X]` under Q_JUMP_VX (40_control_flow.md R131). -/
def execJpV0 (nnn : Imm12) (s : State) : Result :=
  if qJumpVx s.mode then .next (s.jump (zext8 (addrNN nnn) + zext8 (s.reg (regOf (addrX nnn)))))
  else .next (s.jump (zext12 nnn + zext8 (s.reg 0)))

end Sys2Proof.Machine
end

