-- ==== Sys2Proof/Machine/Display.lean ====
section
/-!
DEFINITION. The framebuffer controller's operations on one plane and on the selected planes (41_framebuffer.md R150,
R159, R161), and the composition of a frame (R160). Row y of a plane is a 128-bit row whose bit x is the cell (x, y), so
that moving a row's cells to higher columns is a left shift of the row.
-/

namespace Sys2Proof.Machine

/-- Cell (x, y) of a plane (10_state.md R28). -/
def Plane.cell (p : Plane) (x : Fin 128) (y : Fin 64) : Bool := p[y.val].getLsbD x.val

/-- Row y of a plane, all zero outside the buffer. -/
def Plane.row (p : Plane) (y : Nat) : BitVec 128 := p.getD y 0

/-- Every cell 0. -/
def Plane.clear : Plane := Vector.replicate 64 0

/-- All rows down by `n`, zero filled at the top (41_framebuffer.md R151). -/
def Plane.scrollDown (p : Plane) (n : Nat) : Plane :=
  Vector.ofFn fun y => if n ≤ y.val then p.row (y.val - n) else 0

/-- All rows up by `n`, zero filled at the bottom (41_framebuffer.md R152). -/
def Plane.scrollUp (p : Plane) (n : Nat) : Plane :=
  Vector.ofFn fun y => if y.val + n < 64 then p.row (y.val + n) else 0

/-- All columns right by 4, zero filled on the left (41_framebuffer.md R154). -/
def Plane.scrollRight4 (p : Plane) : Plane := Vector.ofFn fun y => p[y.val] <<< 4

/-- All columns left by 4, zero filled on the right (41_framebuffer.md R155). -/
def Plane.scrollLeft4 (p : Plane) : Plane := Vector.ofFn fun y => p[y.val] >>> 4

/-- `plane[p][y*128 + x] <- old xor bit` (43_sprite.md R206). -/
def Plane.xorCell (p : Plane) (x : Fin 128) (y : Fin 64) (bit : Bool) : Plane :=
  p.set y.val (p[y.val] ^^^ ((BitVec.ofBool bit).setWidth 128 <<< x.val))

/-- `plane_mask[p] = 1` (41_framebuffer.md R150). -/
def State.selected (s : State) (p : Fin 2) : Bool := s.planeMask.getLsbD p.val

/-- `plane[p]`. -/
def State.plane (s : State) (p : Fin 2) : Plane := if p = 0 then s.plane0 else s.plane1

/-- Change each selected plane and set `dirty`, also when nothing changes (41_framebuffer.md R150, R161). -/
def State.updatePlanes (s : State) (f : Plane → Plane) : State :=
  { s with
      plane0 := if s.selected 0 then f s.plane0 else s.plane0
      plane1 := if s.selected 1 then f s.plane1 else s.plane1
      dirty := true }

/-- The composed value of a cell: `(plane1 << 1) | plane0` (41_framebuffer.md R160). -/
def State.pixel (s : State) (x : Fin 128) (y : Fin 64) : BitVec 2 :=
  BitVec.ofBool (s.plane1.cell x y) ++ BitVec.ofBool (s.plane0.cell x y)

/-- One frame, row-major, origin top-left (41_framebuffer.md R160). -/
def State.composite (s : State) : List (BitVec 2) :=
  (List.finRange 64).flatMap fun y => (List.finRange 128).map fun x => s.pixel x y

end Sys2Proof.Machine
end

