-- ==== Sys2Proof/Machine/Framebuffer.lean ====
section
/-!
DEFINITION. SCD, SCU, CLS, SCR, SCL, LOW, HIGH, PLANE (41_framebuffer.md R151 to R158).
-/

namespace Sys2Proof.Machine

/-- `SCD n` (41_framebuffer.md R151). -/
def execScd (n : Nibble) (s : State) : Result :=
  .next (s.updatePlanes (fun p => p.scrollDown n.toNat)).advance

/-- `SCU n` (41_framebuffer.md R152). -/
def execScu (n : Nibble) (s : State) : Result :=
  .next (s.updatePlanes (fun p => p.scrollUp n.toNat)).advance

/-- `CLS` (41_framebuffer.md R153). -/
def execCls (s : State) : Result :=
  .next (s.updatePlanes (fun _ => Plane.clear)).advance

/-- `SCR` (41_framebuffer.md R154). -/
def execScr (s : State) : Result :=
  .next (s.updatePlanes Plane.scrollRight4).advance

/-- `SCL` (41_framebuffer.md R155). -/
def execScl (s : State) : Result :=
  .next (s.updatePlanes Plane.scrollLeft4).advance

/-- `LOW` (41_framebuffer.md R156). -/
def execLow (s : State) : Result :=
  .next { s with hires := false }.advance

/-- `HIGH` (41_framebuffer.md R157). -/
def execHigh (s : State) : Result :=
  .next { s with hires := true }.advance

/-- `PLANE x`: X is a literal; above 3 it is ignored with a warning (41_framebuffer.md R158). -/
def execPlane (x : Nibble) (s : State) : Result :=
  if x.toNat ≤ 3 then .next { s with planeMask := x.setWidth 2 }.advance
  else .next (s.emit (.warn (.planeRange x))).advance

end Sys2Proof.Machine
end

