-- ==== Sys2Proof/Machine/Keypad.lean ====
section
/-!
DEFINITION. SKP, SKNP and LD Vx,K (44_input.md R220 to R224).
-/

namespace Sys2Proof.Machine

/-- `SKP Vx` (44_input.md R221). -/
def execSkp (x : Reg) (s : State) : Result :=
  .next (s.skipIf (s.key (lowNibble (s.reg x))))

/-- `SKNP Vx` (44_input.md R222). -/
def execSknp (x : Reg) (s : State) : Result :=
  .next (s.skipIf (!s.key (lowNibble (s.reg x))))

/-- The end of FX0A: the key's index goes to `V[X]`. -/
def State.takeKey (s : State) (x : Reg) (k : Fin 16) : State :=
  (s.setReg x (BitVec.ofNat 8 k.val)).advance

/-- `LD Vx, K`: completes when some key was released since the previous iteration, else retries with nothing changed
(44_input.md R223). Which of several it takes is free among them (log 8). -/
def execLdVxK (x : Reg) (s : State) : Result :=
  match s.releasedKeys with
  | [] => .next s
  | [k] => .next (s.takeKey x k)
  | k :: k' :: ks =>
    .next { s.takeKey x ((k :: k' :: ks).getD (Config.keyChoice s.fresh % (ks.length + 2)) k) with fresh := s.fresh + 1 }

end Sys2Proof.Machine
end

