-- ==== Sys2Proof/Machine/Sprite.lean ====
section
/-!
DEFINITION. DRW, the XOR sprite blitter and collision detector (43_sprite.md R200 to R211).

The four loops of R200 become the list of the sprite's dots in loop order, each a cell of the buffer and the sprite bit
that falls on it; the innermost loop, over the selected planes, is done plane by plane, since the planes do not meet.
-/

namespace Sys2Proof.Machine

/-- The shape of a sprite (43_sprite.md R202, R203). -/
structure SpriteShape where
  rows : Nat
  cols : Nat
  bytesPerRow : Nat
  scale : Nat
deriving DecidableEq, Repr

/-- 16×16 with two bytes a row when `hires` and N = 0, else 8×N; doubled in low resolution (43_sprite.md R202, R203). -/
def spriteShape (hires : Bool) (n : Nibble) : SpriteShape :=
  if hires then
    (if n = 0 then { rows := 16, cols := 16, bytesPerRow := 2, scale := 1 }
     else { rows := n.toNat, cols := 8, bytesPerRow := 1, scale := 1 })
  else { rows := n.toNat, cols := 8, bytesPerRow := 1, scale := 2 }

/-- Bit (r, c) of the sprite at `idx`, most significant bit first (43_sprite.md R205). -/
def State.spriteBit (s : State) (bytesPerRow r c : Nat) : Bool :=
  (s.byteAt (s.idx + BitVec.ofNat 16 (r * bytesPerRow + c / 8))).getLsbD (7 - c % 8)

/-- The cell of a pixel position: wrapped, or none where it is clipped (43_sprite.md R204). -/
def cellAt (wrap : Bool) (px py : Nat) : Option (Fin 128 × Fin 64) :=
  if wrap then some (Fin.ofNat 128 px, Fin.ofNat 64 py)
  else if h : px < 128 ∧ py < 64 then some (⟨px, h.1⟩, ⟨py, h.2⟩)
  else none

/-- A cell the sprite covers and the sprite bit that falls on it. -/
structure Dot where
  x : Fin 128
  y : Fin 64
  bit : Bool
deriving DecidableEq, Repr

/-- The dot of sprite bit (r, c), sub-pixel (dx, dy), if it is not clipped (43_sprite.md R204). -/
def State.spriteDot (s : State) (sh : SpriteShape) (bx by0 r c dy dx : Nat) : Option Dot :=
  (cellAt (qWrap s.mode) (bx + c * sh.scale + dx) (by0 + r * sh.scale + dy)).map
    fun cell => { x := cell.1, y := cell.2, bit := s.spriteBit sh.bytesPerRow r c }

/-- The dots of a sprite drawn at (bx, by0), in the order of the loops of 43_sprite.md R200. -/
def State.spriteDots (s : State) (sh : SpriteShape) (bx by0 : Nat) : List Dot :=
  (List.range sh.rows).flatMap fun r => (List.range sh.cols).flatMap fun c =>
    (List.range sh.scale).flatMap fun dy => (List.range sh.scale).filterMap fun dx =>
      s.spriteDot sh bx by0 r c dy dx

/-- XOR one dot into a plane, and note a collision: the cell was 1 and the bit is 1 (43_sprite.md R206). -/
def blitDot (acc : Plane × Bool) (d : Dot) : Plane × Bool :=
  (acc.1.xorCell d.x d.y d.bit, acc.2 || (acc.1.cell d.x d.y && d.bit))

/-- XOR the dots into a plane, in order; the Boolean says whether any collided (43_sprite.md R206). -/
def blit (dots : List Dot) (p : Plane) : Plane × Bool := dots.foldl blitDot (p, false)

/-- `base_x mod 128` (43_sprite.md R203). -/
def State.spriteX (s : State) (sh : SpriteShape) (x : Reg) : Nat := ((s.reg x).toNat * sh.scale) % 128

/-- `base_y mod 64` (43_sprite.md R203). -/
def State.spriteY (s : State) (sh : SpriteShape) (y : Reg) : Nat := ((s.reg y).toNat * sh.scale) % 64

/-- The dots of `DRW Vx, Vy, n` on a state: the coordinates are read before VF is reset (43_sprite.md R203). -/
def State.drwDots (s : State) (x y : Reg) (n : Nibble) : List Dot :=
  s.spriteDots (spriteShape s.hires n) (s.spriteX (spriteShape s.hires n) x) (s.spriteY (spriteShape s.hires n) y)

/-- Some dot collides on some selected plane (43_sprite.md R206, R209). -/
def State.drwHit (s : State) (dots : List Dot) : Bool :=
  (s.selected 0 && (blit dots s.plane0).2) || (s.selected 1 && (blit dots s.plane1).2)

/-- DRW must wait: CHIP8 mode, and the step's ordinal is no multiple of 4 (43_sprite.md R201). -/
def State.drwWaits (s : State) : Bool := qDispWait s.mode && (s.cycleCounter.toNat % 4 != 0)

/-- `DRW Vx, Vy, n` (43_sprite.md R200). A retry changes nothing, `pc` included (R201). -/
def execDrw (x y : Reg) (n : Nibble) (s : State) : Result :=
  if s.drwWaits then .next s
  else
    let dots := s.drwDots x y n
    .next ((s.updatePlanes (fun p => (blit dots p).1)).setReg vf (flagByte (s.drwHit dots))).advance

end Sys2Proof.Machine
end

