-- ==== Sys2Proof/Machine/Storage.lean ====
section
/-!
DEFINITION. The flag store instructions (47_storage.md R265 to R268).
-/

namespace Sys2Proof.Machine

/-- The first `last + 1` bytes from `new`, the others as in `old` (47_storage.md R265). -/
def upsert (new old : Vector Byte 16) (last : Fin 16) : Vector Byte 16 :=
  Vector.ofFn fun i => if i ≤ last then new[i.val] else old[i.val]

/-- `LD R, Vx` (47_storage.md R266). -/
def execLdRVx (x : Reg) (s : State) : Result :=
  match flagReach s.mode x with
  | none => .next s.advance
  | some last =>
    .next ({ s with rpl := upsert s.v s.rpl last }.emit (.persist ((regRange 0 last).map s.reg))).advance

/-- `LD Vx, R` (47_storage.md R267). -/
def execLdVxR (x : Reg) (s : State) : Result :=
  match flagReach s.mode x with
  | none => .next s.advance
  | some last => .next { s with v := upsert s.rpl s.v last }.advance

end Sys2Proof.Machine
end

