-- ==== Sys2Proof/Machine/Transfer.lean ====
section
/-!
DEFINITION. The index register and memory transfer instructions (45_memory_index.md R230 to R240).
-/

namespace Sys2Proof.Machine

/-- `SAVE Vx, Vy` (45_memory_index.md R239). -/
def execSave (x y : Reg) (s : State) : Result :=
  .next (s.storeRegList (regRange x y)).advance

/-- `LOAD Vx, Vy` (45_memory_index.md R240). -/
def execLoad (x y : Reg) (s : State) : Result :=
  .next (s.loadRegList (regRange x y)).advance

/-- `LD I, nnn` (45_memory_index.md R230). -/
def execLdI (nnn : Imm12) (s : State) : Result :=
  .next (s.setIdx (zext12 nnn)).advance

/-- `LDL I, nnnn`: four bytes long (45_memory_index.md R231). -/
def execLdlI (nnnn : Word) (s : State) : Result :=
  .next ((s.setIdx nnnn).jump (s.pc + 4))

/-- `ADD I, Vx`, no flag (45_memory_index.md R232). -/
def execAddI (x : Reg) (s : State) : Result :=
  .next (s.setIdx (s.idx + zext8 (s.reg x))).advance

/-- `LD F, Vx` (45_memory_index.md R233). -/
def execLdF (x : Reg) (s : State) : Result :=
  .next (s.setIdx (lowGlyph (lowNibble (s.reg x)))).advance

/-- `LD HF, Vx` (45_memory_index.md R234). -/
def execLdHf (x : Reg) (s : State) : Result :=
  .next (s.setIdx (highGlyph s.params.hiresFontOffset (lowNibble (s.reg x)))).advance

/-- Hundreds, tens and ones of a byte (45_memory_index.md R235; the order PRESUMED by the spec, log 17). -/
def bcdDigits (a : Byte) : List Byte :=
  [BitVec.ofNat 8 (a.toNat / 100), BitVec.ofNat 8 (a.toNat / 10 % 10), BitVec.ofNat 8 (a.toNat % 10)]

/-- `LD B, Vx` (45_memory_index.md R235). -/
def execLdB (x : Reg) (s : State) : Result :=
  .next (s.storeBytes s.idx (bcdDigits (s.reg x))).advance

/-- `LD [I], Vx` (45_memory_index.md R237). -/
def execStoreRegs (x : Reg) (s : State) : Result :=
  .next ((s.storeRegList (regRange 0 x)).memInc x).advance

/-- `LD Vx, [I]` (45_memory_index.md R238). -/
def execLoadRegs (x : Reg) (s : State) : Result :=
  .next ((s.loadRegList (regRange 0 x)).memInc x).advance

end Sys2Proof.Machine
end

