-- ==== Sys2Proof/Machine/Iteration.lean ====
section
/-!
DEFINITION. The step (40_control_flow.md R120) and the run-loop iteration around it (60_exceptions.md R300 to R306).
-/

namespace Sys2Proof.Machine

/-! ## The step -/

/-- A word that is no instruction: a 2-byte no-op with a warning (30_encoding.md R100). -/
def unknownStep (op : Word) (s : State) : Result :=
  .next (s.emit (.warn (.unknownOpcode op))).advance

/-- Perform what was decoded. A fetch always reads four bytes, so the last case does not arise; it is treated as the
word being unknown. -/
def perform (d : Decoded) (s : State) : Result :=
  match d with
  | .instr i _ => exec i s
  | .unknownOpcode op _ => unknownStep op s
  | .truncated => unknownStep (s.wordAt s.pc) s

/-- Step 5 of R120: count the step unless it faulted (10_state.md R33). -/
def State.countCycle (s : State) : State :=
  if s.fault.isSome then s else { s with cycleCounter := s.cycleCounter + 1 }

/-- Apply a function to the next state of a result. -/
def mapNext (f : State → State) : Result → Result
  | .next t => .next (f t)
  | .fault r => .fault r
  | .refused r => .refused r

/-- One step (40_control_flow.md R120): fetch, decode, perform, count. -/
def coreStep (s : State) : Result :=
  mapNext State.countCycle (perform (decode s.fetchBytes) s)

/-! ## The inputs of an iteration -/

/-- The inputs of the coming iteration: the oldest given one, or free where none is given (log 6). -/
def State.nextInput (s : State) : Input :=
  match s.inputs with
  | [] => Config.input s.fresh
  | i :: _ => i

/-- The coming iteration's inputs are used up. -/
def State.dropInput (s : State) : State :=
  match s.inputs with
  | [] => { s with fresh := s.fresh + 1 }
  | _ :: rest => { s with inputs := rest }

/-- Steps 1 and 2 of the iteration: the key sample, then the pause and quit edges (60_exceptions.md R300). The events of
the iteration before are gone (log 21). -/
def State.sample (s : State) (inp : Input) : State :=
  { s.dropInput with
      prevKeys := s.keys
      keys := inp.keys
      paused := s.paused != inp.pauseEdge
      finished := s.finished || inp.quitEdge
      events := [] }

/-! ## The tick -/

/-- A timer one lower, floor-saturated at zero (10_state.md R32). -/
def countDown (t : Byte) : Byte := if t = 0 then 0 else t - 1

/-- Part 1 of the tick: output a frame if `dirty`. -/
def State.drawFrame (s : State) : State :=
  if s.dirty then { s.emit (.frame s.composite) with dirty := false } else s

/-- Parts 3 and 4 of the tick: the tone level from the sound timer before its decrement (46_timers_audio.md R256). -/
def State.soundTick (s : State) : State :=
  { s with audioOn := decide (s.soundTimer ≠ 0), soundTimer := countDown s.soundTimer }

/-- The 60 Hz tick, in the order of 60_exceptions.md R302. A failing host call ends the run with the state as it was when
the call was made (R306): the display call is made only if `dirty`, the audio call (play or stop) always. -/
def State.tick (s : State) (failing : Option HostCall) : State :=
  if s.dirty ∧ failing = some .display then { s with hostError := true }
  else
    let s1 := s.drawFrame
    let s2 := { s1 with delayTimer := countDown s1.delayTimer }
    if failing = some .audio then { s2 with hostError := true } else s2.soundTick

/-! ## The iteration -/

/-- The host reports that it could not write the save file, if this step asked it to (60_exceptions.md R285). -/
def State.reportStorage (s : State) (inp : Input) : State :=
  if inp.storageFails ∧ s.events.any (fun e => match e with | .persist _ => true | _ => false) then
    s.emit (.warn .storageWriteFailed)
  else s

/-- Steps 4 to 6 after the step itself: a fault ends the run, `finished` ends it before any tick, else the tick if it is
due (60_exceptions.md R300, R305). -/
def State.afterStep (s : State) (inp : Input) : State :=
  if s.fault.isSome then s
  else
    let t := s.reportStorage inp
    if t.finished then t else if inp.tickDue then t.tick inp.hostError else t

/-- The rest of an iteration once the inputs are sampled (60_exceptions.md R300 steps 3 to 6, R303, R304). -/
def iterateSampled (s : State) (inp : Input) : Result :=
  if s.paused ∧ ¬ s.finished then .next s
  else mapNext (fun t => t.afterStep inp) (coreStep s)

/-- One iteration of the run loop, if the run has not ended (60_exceptions.md R300). -/
def iterate (s : State) : Result :=
  if s.ended then .fault .runEnded
  else iterateSampled (s.sample s.nextInput) s.nextInput

end Sys2Proof.Machine
end

