-- ==== Sys2Proof/Machine/Launch.lean ====
section
/-!
DEFINITION. What happens before the first step: mode selection (10_state.md R39), reset and program load
(70_reset_and_hazards.md R320, R330, R331).
-/

namespace Sys2Proof.Machine

/-- The configuration value `mode` (10_state.md R39). -/
inductive ConfigMode where
  | chip8
  | superchip
  | xochip
deriving DecidableEq, Repr

/-- The ROM's file extension, as far as the mode selector reads it (10_state.md R39). -/
inductive RomExtension where
  | xo8
  | sc8
  | other
deriving DecidableEq, Repr

/-- The mode selector: the extension overrides the configuration (10_state.md R39). -/
def selectMode (config : ConfigMode) (extension : RomExtension) : Mode :=
  match extension with
  | .xo8 => .xochip
  | .sc8 => .schip
  | .other =>
    match config with
    | .chip8 => .chip8
    | .superchip => .schip
    | .xochip => .xochip

/-- Where programs are loaded (20_memory.md R74). -/
def loadAddress : Word := 0x0200

/-- The longest ROM, `65536 - 0x200` bytes (70_reset_and_hazards.md R331). -/
def maxRomLength : Nat := 65024

/-- Program load: the ROM's bytes from 0x0200 on; none for an oversized ROM (70_reset_and_hazards.md R330, R331). -/
def State.loadProgram (s : State) (rom : List Byte) : Option State :=
  if rom.length ≤ maxRomLength then some (s.storeBytes loadAddress rom) else none

/-- The launch sequence: reset under the environment's parameters, then program load (70_reset_and_hazards.md R330). -/
def launch (params : Params) (mode : Mode) (rplInit : Vector Byte 16) (rom : List Byte) : Option State :=
  (State.resetWith params mode rplInit).loadProgram rom

end Sys2Proof.Machine
end

