-- ==== Sys2Proof/Machine/Step.lean ====
section
/-!
DEFINITION. The machine's step: one iteration of the run loop (60_exceptions.md R300).
-/

namespace Sys2Proof.Machine

/-- One iteration. -/
def step (s : State) : Host.Outcome State Fault Refusal := iterate s

/-- `s` with an instruction placed where the next step fetches (log 22): the low `nbits` bits of `w`, numbered as
spec/opcode_table.json numbers them, then zeros. -/
def State.withFetchWord (s : State) (nbits w : Nat) : State := s.placeAtFetch (tableBytes nbits w)

end Sys2Proof.Machine
end

