-- ==== Sys2Proof/Safety.lean ====
section
/-!
DEFINITION. What counts as a good state and a safe run, in the terms the statements use.
-/

namespace Sys2Proof.Machine

/-- A recorded fault is precise: `pc` still holds the faulting instruction's address and `sp` is at the bound that made
it fault (60_exceptions.md R280, R283). -/
def StackFault.precise (s : State) : Option StackFault → Prop
  | none => True
  | some (.overflow a) => a = s.pc ∧ s.sp = 15
  | some (.underflow a) => a = s.pc ∧ s.sp = 0

/-- The invariant of the machine: HIRES_FONT_OFFSET is legal (20_memory.md R71), RAM is in canonical form, stack slot 0 is never written (10_state.md R26), and a
recorded fault is precise. -/
structure State.Inv (s : State) : Prop where
  paramsLegal : s.params.Legal
  ramWf : s.ram.wf s.params
  slotZero : s.stack[0] = 0
  faultPrecise : StackFault.precise s s.fault

/-- A run that stands here has not stopped on a stack fault or a failed host call. -/
def State.Safe (s : State) : Prop := s.fault = none ∧ s.hostError = false

/-- An iteration starts here: the run has not ended. -/
def State.Running (s : State) : Prop := s.ended = false

end Sys2Proof.Machine
end

