-- ==== Sys2Proof/Certificates/Slice0/Obligations.lean ====
section
/-!
DEFINITION. The statements for the provers, from the numbered rules of spec/. Each docstring names the rules or the
sections it formalises; where a clause rests on a decision the spec marks as its own, or on the model's, it says so.

A frame is an equation `t = { s with … }` naming every field that may differ, so every other field of the state is
unchanged; for RAM it is said again through the read of one byte.
-/

namespace Sys2Proof.Claims

open Sys2Proof.Machine

/-! ## Frames -/

/-- Every byte of RAM reads as before. -/
def SameBytes (s t : State) : Prop := ∀ a : Word, t.byteAt a = s.byteAt a

/-- Every byte outside the `n` bytes stored from address `a` on reads as before. -/
def SameBytesOutside (s t : State) (a : Word) (n : Nat) : Prop :=
  ∀ b : Word, (∀ i < n, b ≠ a + BitVec.ofNat 16 i) → t.byteAt b = s.byteAt b

/-- Nothing but the program counter changed. -/
def OnlyPc (s t : State) : Prop := t = { s with pc := t.pc } ∧ SameBytes s t

/-- Nothing but the registers listed and the program counter changed, and that is two further. -/
def OnlyRegs (s t : State) (ws : List Reg) : Prop :=
  t = { s with v := t.v, pc := t.pc } ∧ (∀ r, r ∉ ws → t.reg r = s.reg r) ∧ t.pc = s.pc + 2 ∧ SameBytes s t

/-- Nothing but the two planes, `dirty` and the program counter changed; `dirty` is set, the program counter is two
further. -/
def OnlyPlanes (s t : State) : Prop :=
  t = { s with plane0 := t.plane0, plane1 := t.plane1, dirty := t.dirty, pc := t.pc } ∧
    t.dirty = true ∧ t.pc = s.pc + 2 ∧ SameBytes s t

/-! ## Terms of the rules -/

/-- Where a skip instruction leaves the program counter (40_control_flow.md R124). -/
def skipTarget (s : State) (skip : Bool) : Word :=
  if skip = false then s.pc + 2
  else if s.byteAt (s.pc + 2) = 0xF0 ∧ s.byteAt (s.pc + 3) = 0x00 then s.pc + 6
  else s.pc + 4

/-- Cell (x, y) of a plane, false outside the buffer. -/
def cellOf (p : Plane) (x y : Nat) : Bool := if h : y < 64 then p[y].getLsbD x else false

/-- The state in which the iteration's step runs: the key sample and the edges of 60_exceptions.md R300, the inputs
used up, no event yet. -/
def sampled (s : State) (inp : Input) : State :=
  { s with
      prevKeys := s.keys
      keys := inp.keys
      paused := s.paused != inp.pauseEdge
      finished := s.finished || inp.quitEdge
      inputs := s.inputs.tail
      fresh := if s.inputs = [] then s.fresh + 1 else s.fresh
      events := [] }

/-- The iteration takes no step: paused and not finished after the edges (60_exceptions.md R300). -/
def Halted (s : State) (inp : Input) : Prop := (s.paused != inp.pauseEdge) = true ∧ (s.finished || inp.quitEdge) = false

/-- The four bytes at the program counter. -/
def bytesAtPc (s : State) : List Byte :=
  [s.byteAt s.pc, s.byteAt (s.pc + 1), s.byteAt (s.pc + 2), s.byteAt (s.pc + 3)]

/-- DRW is performed, not retried (43_sprite.md R201). -/
def DrawsNow (s : State) : Prop := s.mode = .chip8 → s.cycleCounter.toNat % 4 = 0

/-- The sprite is 16×16 (43_sprite.md R202). -/
def Wide (s : State) (n : Nibble) : Prop := s.hires = true ∧ n = 0

/-- Some bit of `DRW Vx, Vy, n` that is 1 falls on cell (px, py) (43_sprite.md R200): row r, column c, sub-pixel
(dx, dy). -/
def Covers (s : State) (x y : Reg) (n : Nibble) (px py : Nat) : Prop :=
  ∃ r c dy dx bpr scale : Nat,
    (Wide s n ∧ r < 16 ∧ c < 16 ∧ bpr = 2 ∨ ¬ Wide s n ∧ r < n.toNat ∧ c < 8 ∧ bpr = 1) ∧
    scale = (if s.hires then 1 else 2) ∧ dy < scale ∧ dx < scale ∧
    (s.byteAt (s.idx + BitVec.ofNat 16 (r * bpr + c / 8))).getLsbD (7 - c % 8) = true ∧
    (if s.mode = .xochip then
      ((s.reg x).toNat * scale % 128 + c * scale + dx) % 128 = px ∧ ((s.reg y).toNat * scale % 64 + r * scale + dy) % 64 = py
    else
      (s.reg x).toNat * scale % 128 + c * scale + dx = px ∧ (s.reg y).toNat * scale % 64 + r * scale + dy = py)

/-- The register that byte `i` of a range transfer belongs to, `V[X]` first (45_memory_index.md R239, R240). -/
def rangeReg (x y : Reg) (i : Nat) : Nat := if x.val ≤ y.val then x.val + i else x.val - i

/-- `|X - Y|`. -/
def rangeSpan (x y : Reg) : Nat := if x.val ≤ y.val then y.val - x.val else x.val - y.val

/-- The effective last index of FX75 and FX85 outside CHIP8 mode (47_storage.md R268). -/
def lastFlag (m : Mode) (x : Reg) : Nat := min x.val (if m = .schip then 7 else 15)

/-- The row of 30_encoding.md R94 of an instruction, as (match, mask). -/
def rowOf : Instr → Word × Word
  | .scd _ => (0x00C0, 0xFFF0)
  | .scu _ => (0x00D0, 0xFFF0)
  | .cls => (0x00E0, 0xFFFF)
  | .ret => (0x00EE, 0xFFFF)
  | .scr => (0x00FB, 0xFFFF)
  | .scl => (0x00FC, 0xFFFF)
  | .exit => (0x00FD, 0xFFFF)
  | .low => (0x00FE, 0xFFFF)
  | .high => (0x00FF, 0xFFFF)
  | .jp _ => (0x1000, 0xF000)
  | .call _ => (0x2000, 0xF000)
  | .seImm _ _ => (0x3000, 0xF000)
  | .sneImm _ _ => (0x4000, 0xF000)
  | .seReg _ _ => (0x5000, 0xF00F)
  | .save _ _ => (0x5002, 0xF00F)
  | .load _ _ => (0x5003, 0xF00F)
  | .ldImm _ _ => (0x6000, 0xF000)
  | .addImm _ _ => (0x7000, 0xF000)
  | .ldReg _ _ => (0x8000, 0xF00F)
  | .orReg _ _ => (0x8001, 0xF00F)
  | .andReg _ _ => (0x8002, 0xF00F)
  | .xorReg _ _ => (0x8003, 0xF00F)
  | .addReg _ _ => (0x8004, 0xF00F)
  | .sub _ _ => (0x8005, 0xF00F)
  | .shr _ _ => (0x8006, 0xF00F)
  | .subn _ _ => (0x8007, 0xF00F)
  | .shl _ _ => (0x800E, 0xF00F)
  | .sneReg _ _ => (0x9000, 0xF00F)
  | .ldI _ => (0xA000, 0xF000)
  | .jpV0 _ => (0xB000, 0xF000)
  | .rnd _ _ => (0xC000, 0xF000)
  | .drw _ _ _ => (0xD000, 0xF000)
  | .skp _ => (0xE09E, 0xF0FF)
  | .sknp _ => (0xE0A1, 0xF0FF)
  | .ldlI _ => (0xF000, 0xFFFF)
  | .audio => (0xF002, 0xFFFF)
  | .plane _ => (0xF001, 0xF0FF)
  | .ldVxDt _ => (0xF007, 0xF0FF)
  | .ldVxK _ => (0xF00A, 0xF0FF)
  | .ldDtVx _ => (0xF015, 0xF0FF)
  | .ldStVx _ => (0xF018, 0xF0FF)
  | .addI _ => (0xF01E, 0xF0FF)
  | .ldF _ => (0xF029, 0xF0FF)
  | .ldHf _ => (0xF030, 0xF0FF)
  | .ldB _ => (0xF033, 0xF0FF)
  | .pitch _ => (0xF03A, 0xF0FF)
  | .storeRegs _ => (0xF055, 0xF0FF)
  | .loadRegs _ => (0xF065, 0xF0FF)
  | .ldRVx _ => (0xF075, 0xF0FF)
  | .ldVxR _ => (0xF085, 0xF0FF)

/-- A word matches the row of some instruction: `(op & mask) = match` (30_encoding.md R92). -/
def Known (op : Word) : Prop := ∃ i : Instr, op &&& (rowOf i).2 = (rowOf i).1

/-- The instruction may write VF in a mode (10_state.md R21, R22): a flag writer, or VF among its destinations. -/
def mayWriteVf (m : Mode) : Instr → Bool
  | .ldImm x _ | .addImm x _ | .ldReg x _ | .rnd x _ | .ldVxDt x | .ldVxK x | .loadRegs x => x == 15
  | .load x y => x == 15 || y == 15
  | .orReg x _ | .andReg x _ | .xorReg x _ => x == 15 || m == .chip8
  | .addReg _ _ | .sub _ _ | .subn _ _ | .shr _ _ | .shl _ _ | .drw _ _ _ => true
  | .ldVxR x => x == 15 && m == .xochip
  | _ => false

end Sys2Proof.Claims

open Sys2Proof Sys2Proof.Machine Sys2Proof.Claims

/-! ## Encoding -/

/-- 30_encoding.md R90 to R94, 20_memory.md R64, R65 (NNNN big-endian is the spec's decision D14): the bytes of every
instruction, with any bytes after them, decode to it and leave those. -/
def Obligations.DecodeOfEncodeIsIdentity : Prop :=
  ∀ (i : Instr) (rest : List Byte), decode (encodeBytes i ++ rest) = .instr i rest

/-- The other direction: what decodes to an instruction is that instruction's encoding, so each instruction has one
encoding and no bit of it is ignored. -/
def Obligations.EncodeOfDecodeIsIdentity : Prop :=
  ∀ (bytes : List Byte) (i : Instr) (rest : List Byte), decode bytes = .instr i rest → encodeBytes i ++ rest = bytes

/-- 30_encoding.md R90, R92, R94, R100: a fetch decodes exactly if its first word matches a row, to an instruction of
that row, of four bytes for F000 and of two for any other word; else it is unknown and two bytes long. -/
def Obligations.DecoderFollowsOpcodeTable : Prop :=
  ∀ (op : Word) (b2 b3 : Byte),
    (∀ i rest, decode [op.extractLsb' 8 8, op.extractLsb' 0 8, b2, b3] = .instr i rest →
      op &&& (rowOf i).2 = (rowOf i).1 ∧ rest = if op = 0xF000 then [] else [b2, b3]) ∧
    (Known op → ∃ i rest, decode [op.extractLsb' 8 8, op.extractLsb' 0 8, b2, b3] = .instr i rest) ∧
    (¬ Known op → decode [op.extractLsb' 8 8, op.extractLsb' 0 8, b2, b3] = .unknownOpcode op [b2, b3])

/-- Words written out from the encodings of 30_encoding.md R94 (examples of 40 to 47); that the long load's literal is
big-endian is the spec's decision D14 (log 15). -/
def Obligations.SampleWordsDecode : Prop :=
  decode [0x8A, 0xB4] = .instr (.addReg 0xA 0xB) [] ∧ decode [0x6A, 0xFF] = .instr (.ldImm 0xA 0xFF) [] ∧
  decode [0xB2, 0x06] = .instr (.jpV0 0x206) [] ∧ decode [0x00, 0xC3] = .instr (.scd 3) [] ∧
  decode [0xD0, 0x15] = .instr (.drw 0 1 5) [] ∧ decode [0xE2, 0xA1] = .instr (.sknp 2) [] ∧
  decode [0x52, 0x12] = .instr (.save 2 1) [] ∧ decode [0xF0, 0x00, 0x12, 0x34] = .instr (.ldlI 0x1234) [] ∧
  decode [0xF3, 0x0A] = .instr (.ldVxK 3) [] ∧ decode [0xF9, 0x75] = .instr (.ldRVx 9) [] ∧
  decode [0xF0, 0x02] = .instr .audio [] ∧ decode [0xF1, 0x02] = .unknownOpcode 0xF102 []

/-! ## The step and the iteration -/

/-- 40_control_flow.md section 1 (R120) and 60_exceptions.md section 5 (R300): in an iteration that takes a step, when the
bytes at the program counter decode to `i`, the step is `exec i` on the sampled state, then the step is counted unless it
faulted, then the rest of the iteration (`State.afterStep`: the end of the run, or the tick). In `sampled`, that the key
snapshot is copied at the sample is the spec's derivation (log 36); that events are emptied and inputs used up is the
model's form (DESIGN CHOICE, logs 21, 6). -/
def Obligations.StepRunsDecodedInstruction : Prop :=
  ∀ (s : State) (i : Instr) (rest : List Byte), s.ended = false → ¬ Halted s s.nextInput →
    decode (bytesAtPc s) = .instr i rest →
    step s = match exec i (sampled s s.nextInput) with
      | .next t => .next (State.afterStep
          (if t.fault.isSome then t else { t with cycleCounter := t.cycleCounter + 1 }) s.nextInput)
      | .fault r => .fault r
      | .refused r => .refused r

/-- 30_encoding.md section 3 (the spec's decision D27 of what "fall through" means): a word outside the table is a
counted 2-byte no-op with a warning. The next state is an update of `sampled`: the place of the key copy is the spec's
derivation (log 36); the events of earlier iterations being gone and the inputs used up is the model's form (DESIGN
CHOICE, logs 21, 6). -/
def Obligations.UnknownWordIsTwoByteNoOp : Prop :=
  ∀ (s : State) (op : Word) (rest : List Byte), s.ended = false → ¬ Halted s s.nextInput →
    decode (bytesAtPc s) = .unknownOpcode op rest →
    step s = .next (State.afterStep { sampled s s.nextInput with
      pc := s.pc + 2, cycleCounter := s.cycleCounter + 1, events := [.warn (.unknownOpcode op)] } s.nextInput)

/-- 60_exceptions.md section 5 (R303): a paused iteration only samples the inputs; no step, no count, no tick. That the
sample copies the old key snapshot, also while paused, is the spec's derivation (log 36); the events emptied and the
inputs used up are the model's form (DESIGN CHOICE, logs 21, 6). -/
def Obligations.PausedIterationOnlySamples : Prop :=
  ∀ s : State, s.ended = false → Halted s s.nextInput → step s = .next (sampled s s.nextInput)

/-- 60_exceptions.md section 5 (R304, R305; the spec's reading of the loop text, U8): with the quit edge, paused or not,
one more instruction runs and is counted, no tick follows, and the run has ended. The place of the key copy in `sampled`
is the spec's derivation (log 36); its events and inputs and the answer `runEnded` are the model's form (DESIGN CHOICE,
logs 21, 6, 9). -/
def Obligations.QuitRunsOneMoreInstruction : Prop :=
  ∀ (s : State) (i : Instr) (rest : List Byte) (t : State), s.ended = false → s.nextInput.quitEdge = true →
    decode (bytesAtPc s) = .instr i rest → exec i (sampled s s.nextInput) = .next t → t.fault = none →
    ∃ u, step s = .next u ∧ u.cycleCounter = t.cycleCounter + 1 ∧ u.finished = true ∧ u.pc = t.pc ∧
      u.delayTimer = t.delayTimer ∧ u.soundTimer = t.soundTimer ∧ u.audioOn = t.audioOn ∧ u.dirty = t.dirty ∧
      step u = .fault .runEnded

/-- 60_exceptions.md sections 1 and 5: no iteration is taken once `fault` or `finished` is set or a host call has failed,
and in every other state one is: the step never stops for any other reason (how the end is answered is the model's
choice, log 9). -/
def Obligations.StepStopsExactlyWhenRunEnded : Prop :=
  ∀ s : State,
    ((s.fault ≠ none ∨ s.finished = true ∨ s.hostError = true) → step s = .fault .runEnded) ∧
    (s.fault = none → s.finished = false → s.hostError = false → ∃ t, step s = .next t)

/-- 60_exceptions.md section 6 (R302): what a tick changes, when no host call fails. -/
def Obligations.TickCountsDownAndGates : Prop :=
  ∀ s : State, ∃ t, s.tick none = t ∧
    t = { s with dirty := t.dirty, delayTimer := t.delayTimer, audioOn := t.audioOn, soundTimer := t.soundTimer, events := t.events } ∧
    t.dirty = false ∧
    t.delayTimer.toNat = s.delayTimer.toNat - 1 ∧
    (t.audioOn = true ↔ 0 < s.soundTimer.toNat) ∧
    t.soundTimer.toNat = s.soundTimer.toNat - 1 ∧
    t.events = s.events ++ (if s.dirty then [.frame s.composite] else [])

/-- 60_exceptions.md sections 2, 5 and 6 (R285, R300 steps 4 to 6, R305) and 47_storage.md (R266): after a step that
faulted nothing follows. After any other, with `w` the state after the host's report (the storage warning appended exactly
if the host cannot write the file and the step asked it to; that the report comes at the end of the step is the model's
form, log 26, and the list of events its DESIGN CHOICE, log 21), there is no tick if the run is finished, else a tick
exactly if it is due. -/
def Obligations.TickOnlyAfterUnfinishedStep : Prop :=
  ∀ (s w : State) (inp : Input),
    ((inp.storageFails = true ∧ ∃ bytes, Event.persist bytes ∈ s.events) →
      w = { s with events := s.events ++ [.warn .storageWriteFailed] }) →
    (¬ (inp.storageFails = true ∧ ∃ bytes, Event.persist bytes ∈ s.events) → w = s) →
    (s.fault = none → s.finished = false → inp.tickDue = true → s.afterStep inp = w.tick inp.hostError) ∧
    (s.fault = none → s.finished = false → inp.tickDue = false → s.afterStep inp = w) ∧
    (s.fault = none → s.finished = true → s.afterStep inp = w) ∧
    (s.fault ≠ none → s.afterStep inp = s)

/-- 60_exceptions.md section 5 (R306, the spec's decision D32; which calls a tick makes, and in which order, is the model's
reading, DESIGN CHOICE log 20): a failing display call, made exactly if `dirty`, leaves the state before the tick; a failing
audio call, always made, leaves it after the frame and the delay decrement and before the tone and sound parts; each
records the failure and ends the run (the answer `runEnded` is DESIGN CHOICE, log 9). -/
def Obligations.HostErrorEndsRun : Prop :=
  ∀ s : State,
    (s.dirty = true → s.tick (some .display) = { s with hostError := true }) ∧
    (s.dirty = false → s.tick (some .display) = s.tick none) ∧
    (∃ d : Byte, d.toNat = s.delayTimer.toNat - 1 ∧ s.tick (some .audio) = { s with
      dirty := false, delayTimer := d, events := s.events ++ (if s.dirty then [.frame s.composite] else []),
      hostError := true }) ∧
    (∀ h, (s.tick (some h)).hostError = true → step (s.tick (some h)) = .fault .runEnded)

/-- 40_control_flow.md section 1 and 10_state.md section 6 (R33; modulo 2^64 is the spec's decision D22): an iteration
without a step and a step that faults count nothing, every other step counts one, retries and unknown words included. -/
def Obligations.StepCountsCycles : Prop :=
  ∀ s t : State, step s = .next t →
    (Halted s s.nextInput → t.cycleCounter = s.cycleCounter) ∧
    (¬ Halted s s.nextInput → t.fault ≠ none → t.cycleCounter = s.cycleCounter) ∧
    (¬ Halted s s.nextInput → t.fault = none → t.cycleCounter = s.cycleCounter + 1)

/-- 10_state.md section 7 (R39; constancy is the spec's decision D29), 00_scope.md section 3 (R6: the font parameters are
arguments of the machine) and 47_storage.md (R268): no step changes MODE or the font parameters, and
in CHIP8 mode no step changes the flag store. -/
def Obligations.StepKeepsModeAndChip8Flags : Prop :=
  ∀ s t : State, step s = .next t → t.mode = s.mode ∧ t.params = s.params ∧ (s.mode = .chip8 → t.rpl = s.rpl)

/-- The invariant of Safety.lean (10_state.md R26, 60_exceptions.md section 1 with the spec's decision D7, 20_memory.md
R71 with its decision D9): HIRES_FONT_OFFSET stays legal, RAM canonical, stack slot 0 stays unwritten, a recorded fault is precise; from every state, whatever the inputs. -/
def Obligations.StepKeepsInvariant : Prop := ∀ s t : State, s.Inv → step s = .next t → t.Inv

/-- The invariant holds at reset, in every mode, for every flag store and under every legal font parameters, the defaults
among them (20_memory.md section 4). -/
def Obligations.ResetMeetsInvariant : Prop :=
  ∀ (p : Params) (m : Mode) (r : Vector Byte 16), (p.Legal → (State.resetWith p m r).Inv) ∧ State.reset.Inv

/-! ## Reset and launch -/

/-- 10_state.md section 9 and 20_memory.md section 4 (`plane_mask`, planes, `dirty` and `fault` are the spec's decisions D8,
D19, D7; the constraint on the offset stands in R71, its default is D9, log 3): the state after reset, for every MODE,
RPL_INIT, HIRES_FONT_OFFSET and FONT_LO, and the default offset. -/
def Obligations.ResetLeavesDocumentedState : Prop :=
  ∀ (p : Params) (m : Mode) (r : Vector Byte 16) (s : State), s = State.resetWith p m r →
    (∀ x, s.reg x = 0) ∧ s.pc = 0x0200 ∧ s.idx = 0 ∧ s.sp = 0 ∧ (∀ i : Fin 16, s.stack[i.val] = 0) ∧
    (∀ k x y, cellOf (s.plane k) x y = false) ∧ s.dirty = false ∧ s.planeMask = 1 ∧ s.hires = false ∧
    s.delayTimer = 0 ∧ s.soundTimer = 0 ∧ s.cycleCounter = 0 ∧ (∀ i : Fin 16, s.audioPattern[i.val] = 0) ∧
    s.pitch = 0 ∧ s.audioOn = false ∧ (∀ i : Fin 16, s.keys[i.val] = false ∧ s.prevKeys[i.val] = false) ∧
    s.paused = false ∧ s.finished = false ∧ s.fault = none ∧ s.rpl = r ∧ s.mode = m ∧ s.params = p ∧
    (∀ i : Fin 80, s.byteAt (0x0050 + BitVec.ofNat 16 i.val) = p.fontLo[i.val]) ∧
    (p.Legal → ∀ i < 100, s.byteAt (p.hiresFontOffset + BitVec.ofNat 16 i) = Config.fontHi i) ∧
    (∀ a : Word, (a.toNat < 0x0050 ∨ 0x00A0 ≤ a.toNat) →
      (a.toNat < p.hiresFontOffset.toNat ∨ p.hiresFontOffset.toNat + 100 ≤ a.toNat) → s.byteAt a = 0) ∧
    State.reset.params.hiresFontOffset = 0x00A0 ∧ State.reset.params.Legal

/-- 70_reset_and_hazards.md section 2 and 20_memory.md section 4: a ROM of at most 65024 bytes is placed at 0x0200 over the
reset state, nothing else changes, and the next fetch is at 0x0200; a longer one has no launch. -/
def Obligations.LaunchPlacesProgram : Prop :=
  ∀ (p : Params) (m : Mode) (r : Vector Byte 16) (rom : List Byte),
    (rom.length ≤ 65024 → ∃ s, launch p m r rom = some s ∧
      s = { State.resetWith p m r with ram := s.ram } ∧ s.pc = 0x0200 ∧
      (∀ i (h : i < rom.length), s.byteAt (0x0200 + BitVec.ofNat 16 i) = rom[i]) ∧
      SameBytesOutside (State.resetWith p m r) s 0x0200 rom.length) ∧
    (65024 < rom.length → launch p m r rom = none)

/-- 10_state.md section 7 (R40): the quirk table. -/
def Obligations.QuirkSignalsFollowTable : Prop :=
  (qVfReset .chip8 = true ∧ qVfReset .schip = false ∧ qVfReset .xochip = false) ∧
  (qShiftVy .chip8 = true ∧ qShiftVy .schip = false ∧ qShiftVy .xochip = true) ∧
  (qMemInc .chip8 = true ∧ qMemInc .schip = false ∧ qMemInc .xochip = true) ∧
  (qWrap .chip8 = false ∧ qWrap .schip = false ∧ qWrap .xochip = true) ∧
  (qDispWait .chip8 = true ∧ qDispWait .schip = false ∧ qDispWait .xochip = false) ∧
  (qJumpVx .chip8 = false ∧ qJumpVx .schip = true ∧ qJumpVx .xochip = false) ∧
  (qFlags .chip8 = 0 ∧ qFlags .schip = 8 ∧ qFlags .xochip = 16)

/-! ## Rules over all instructions -/

/-- 60_exceptions.md section 1 (the recorded values are the spec's decisions D6, D7): only CALL with `sp = 15` and RET with
`sp = 0` fault, and then `fault` alone is written. -/
def Obligations.OnlyStackFaultsFault : Prop :=
  ∀ (i : Instr) (s t : State), exec i s = .next t → s.fault = none → t.fault ≠ none →
    (∃ nnn, i = .call nnn ∧ s.sp = 15 ∧ t = { s with fault := some (.overflow s.pc) }) ∨
    (i = .ret ∧ s.sp = 0 ∧ t = { s with fault := some (.underflow s.pc) })

/-- 10_state.md (R25 to R39: who writes each field) and its opening, "an instruction changes no state that its rule does
not name". -/
def Obligations.OnlyDocumentedWriters : Prop :=
  ∀ (i : Instr) (s t : State), exec i s = .next t →
    (t.mode = s.mode ∧ t.params = s.params ∧ t.cycleCounter = s.cycleCounter ∧ t.audioOn = s.audioOn ∧ t.keys = s.keys ∧
      t.prevKeys = s.prevKeys ∧ t.paused = s.paused ∧ t.hostError = s.hostError ∧ t.inputs = s.inputs) ∧
    ((∀ x, i ≠ .plane x) → t.planeMask = s.planeMask) ∧
    (i ≠ .low → i ≠ .high → t.hires = s.hires) ∧
    ((∀ x, i ≠ .ldDtVx x) → t.delayTimer = s.delayTimer) ∧
    ((∀ x, i ≠ .ldStVx x) → t.soundTimer = s.soundTimer) ∧
    (i ≠ .audio → t.audioPattern = s.audioPattern) ∧
    ((∀ x, i ≠ .pitch x) → t.pitch = s.pitch) ∧
    ((∀ x, i ≠ .ldRVx x) → t.rpl = s.rpl) ∧
    (i ≠ .exit → t.finished = s.finished) ∧
    (i ≠ .ret → (∀ nnn, i ≠ .call nnn) → t.sp = s.sp ∧ t.stack = s.stack ∧ t.fault = s.fault) ∧
    ((∀ n, i ≠ .scd n) → (∀ n, i ≠ .scu n) → i ≠ .cls → i ≠ .scr → i ≠ .scl → (∀ x y n, i ≠ .drw x y n) →
      t.plane0 = s.plane0 ∧ t.plane1 = s.plane1 ∧ t.dirty = s.dirty) ∧
    ((∀ nnn, i ≠ .ldI nnn) → (∀ w, i ≠ .ldlI w) → (∀ x, i ≠ .addI x) → (∀ x, i ≠ .ldF x) → (∀ x, i ≠ .ldHf x) →
      (∀ x, i ≠ .storeRegs x) → (∀ x, i ≠ .loadRegs x) → t.idx = s.idx) ∧
    ((∀ x y, i ≠ .save x y) → (∀ x, i ≠ .ldB x) → (∀ x, i ≠ .storeRegs x) → SameBytes s t)

/-- 10_state.md section 2 (R21: "For all opcodes that do not touch VF, the value of V[0xF] is unchanged"). -/
def Obligations.VfKeptByNonWriters : Prop :=
  ∀ (i : Instr) (s t : State), exec i s = .next t → mayWriteVf s.mode i = false → t.reg 15 = s.reg 15

/-- The canonical form of RAM is one for one with its contents: two memories in canonical form (under the
same font parameters) that read alike at every address are the same data (20_memory.md section 4; the form is the model's). -/
def Obligations.CanonicalMemoryIsExtensional : Prop :=
  ∀ (p : Params) (m n : Memory), m.wf p → n.wf p → (∀ a < 65536, m.read p a = n.read p a) → m = n

/-! ## Control flow -/

/-- 40_control_flow.md R127. -/
def Obligations.JumpSetsPc : Prop :=
  ∀ (nnn : Imm12) (s : State), ∃ t, exec (.jp nnn) s = .next t ∧ t.pc.toNat = nnn.toNat ∧ OnlyPc s t

/-- 40_control_flow.md section 3 (R131; the SCHIP base NN is the spec's decision D23): in SCHIP mode `NN + V[X]` with X and
NN the high 4 and low 8 bits of the literal, else `NNN + V[0]`; the sums never wrap. -/
def Obligations.OffsetJumpAddsRegister : Prop :=
  ∀ (nnn : Imm12) (s : State), ∃ t, exec (.jpV0 nnn) s = .next t ∧ OnlyPc s t ∧
    (s.mode = .schip → ∀ x : Reg, x.val = nnn.toNat / 256 → t.pc.toNat = nnn.toNat % 256 + (s.reg x).toNat) ∧
    (s.mode ≠ .schip → t.pc.toNat = nnn.toNat + (s.reg 0).toNat)

/-- 40_control_flow.md section 3 (R128; what is pushed and what a fault writes are the spec's decisions D5 and D7). -/
def Obligations.CallPushesOrOverflows : Prop :=
  ∀ (nnn : Imm12) (s : State),
    (s.sp ≠ 15 → ∃ t, exec (.call nnn) s = .next t ∧ t.pc.toNat = nnn.toNat ∧ t.sp.val = s.sp.val + 1 ∧
      t.stack[t.sp.val] = s.pc + 2 ∧ (∀ i : Fin 16, i ≠ t.sp → t.stack[i.val] = s.stack[i.val]) ∧
      t = { s with pc := t.pc, sp := t.sp, stack := t.stack } ∧ SameBytes s t) ∧
    (s.sp = 15 → exec (.call nnn) s = .next { s with fault := some (.overflow s.pc) })

/-- 40_control_flow.md section 3 (R129; the fault on an empty stack is the spec's decision D6). -/
def Obligations.ReturnPopsOrUnderflows : Prop :=
  ∀ s : State,
    (s.sp ≠ 0 → ∃ t, exec .ret s = .next t ∧ t.pc = s.stack[s.sp.val] ∧ t.sp.val + 1 = s.sp.val ∧
      t = { s with pc := t.pc, sp := t.sp } ∧ SameBytes s t) ∧
    (s.sp = 0 → exec .ret s = .next { s with fault := some (.underflow s.pc) })

/-- 40_control_flow.md section 3 (R130): what EXIT does, and, in an iteration that runs it, that the step is counted and
the run ends before any tick. The place of the key copy in `sampled` is the spec's derivation (log 36); its events and
inputs and the answer `runEnded` are the model's form (DESIGN CHOICE, logs 21, 6, 9). -/
def Obligations.ExitFinishesRun : Prop :=
  ∀ s : State,
    (∃ t, exec .exit s = .next t ∧ t = { s with finished := true, pc := s.pc + 2 } ∧ SameBytes s t) ∧
    (∀ rest, s.ended = false → ¬ Halted s s.nextInput → decode (bytesAtPc s) = .instr .exit rest →
      ∃ u, step s = .next u ∧ u = { sampled s s.nextInput with
          finished := true, pc := s.pc + 2, cycleCounter := s.cycleCounter + 1 } ∧
        step u = .fault .runEnded)

/-- 40_control_flow.md section 2 and 44_input.md (R124, R132 to R135, R220 to R222; skipping a whole F000 NNNN in every
mode is the spec's decision D12): the six skips; a key is selected by the register's low four bits. -/
def Obligations.SkipsFollowCondition : Prop :=
  ∀ (x y : Reg) (nn : Byte) (s : State),
    (∃ t, exec (.seImm x nn) s = .next t ∧ t.pc = skipTarget s (decide (s.reg x = nn)) ∧ OnlyPc s t) ∧
    (∃ t, exec (.sneImm x nn) s = .next t ∧ t.pc = skipTarget s (decide (s.reg x ≠ nn)) ∧ OnlyPc s t) ∧
    (∃ t, exec (.seReg x y) s = .next t ∧ t.pc = skipTarget s (decide (s.reg x = s.reg y)) ∧ OnlyPc s t) ∧
    (∃ t, exec (.sneReg x y) s = .next t ∧ t.pc = skipTarget s (decide (s.reg x ≠ s.reg y)) ∧ OnlyPc s t) ∧
    (∀ k : Fin 16, k.val = (s.reg x).toNat % 16 →
      (∃ t, exec (.skp x) s = .next t ∧ t.pc = skipTarget s s.keys[k.val] ∧ OnlyPc s t) ∧
      (∃ t, exec (.sknp x) s = .next t ∧ t.pc = skipTarget s (!s.keys[k.val]) ∧ OnlyPc s t))

/-! ## Framebuffer -/

/-- 41_framebuffer.md section 2 (R151, R152; that rows are buffer rows in both resolutions is the spec's decision D20, log
18): every cell of a selected plane comes from N rows above (below), 0 where there is none;
other planes stay. -/
def Obligations.VerticalScrollsMoveRows : Prop :=
  ∀ (n : Nibble) (s : State),
    (∃ t, exec (.scd n) s = .next t ∧ OnlyPlanes s t ∧ ∀ (p : Fin 2) (x y : Nat), x < 128 → y < 64 →
      cellOf (t.plane p) x y = if s.planeMask.getLsbD p.val then
        (if n.toNat ≤ y then cellOf (s.plane p) x (y - n.toNat) else false) else cellOf (s.plane p) x y) ∧
    (∃ t, exec (.scu n) s = .next t ∧ OnlyPlanes s t ∧ ∀ (p : Fin 2) (x y : Nat), x < 128 → y < 64 →
      cellOf (t.plane p) x y = if s.planeMask.getLsbD p.val then
        (if y + n.toNat < 64 then cellOf (s.plane p) x (y + n.toNat) else false) else cellOf (s.plane p) x y)

/-- 41_framebuffer.md section 2 (R154, R155; that columns are buffer columns in both resolutions is the spec's decision
D20, log 18): every cell of a selected plane comes from 4 columns to the left (right), 0 where there
is none; other planes stay. -/
def Obligations.HorizontalScrollsMoveColumns : Prop :=
  ∀ s : State,
    (∃ t, exec .scr s = .next t ∧ OnlyPlanes s t ∧ ∀ (p : Fin 2) (x y : Nat), x < 128 → y < 64 →
      cellOf (t.plane p) x y = if s.planeMask.getLsbD p.val then
        (if 4 ≤ x then cellOf (s.plane p) (x - 4) y else false) else cellOf (s.plane p) x y) ∧
    (∃ t, exec .scl s = .next t ∧ OnlyPlanes s t ∧ ∀ (p : Fin 2) (x y : Nat), x < 128 → y < 64 →
      cellOf (t.plane p) x y = if s.planeMask.getLsbD p.val then
        (if x + 4 < 128 then cellOf (s.plane p) (x + 4) y else false) else cellOf (s.plane p) x y)

/-- 41_framebuffer.md R153. -/
def Obligations.ClearZeroesSelectedPlanes : Prop :=
  ∀ s : State, ∃ t, exec .cls s = .next t ∧ OnlyPlanes s t ∧ ∀ (p : Fin 2) (x y : Nat), x < 128 → y < 64 →
    cellOf (t.plane p) x y = if s.planeMask.getLsbD p.val then false else cellOf (s.plane p) x y

/-- 41_framebuffer.md section 2 (R156, R157; that nothing else changes is the spec's decision D21). -/
def Obligations.ResolutionSwitchesOnlyHires : Prop :=
  ∀ s : State,
    (∃ t, exec .low s = .next t ∧ t = { s with hires := false, pc := s.pc + 2 } ∧ SameBytes s t) ∧
    (∃ t, exec .high s = .next t ∧ t = { s with hires := true, pc := s.pc + 2 } ∧ SameBytes s t)

/-- 41_framebuffer.md section 2 (R158): for X at most 3 the mask is written; for X above 3 the instruction only warns. That
the warning bears the name PLANE_RANGE is the spec's decision D15; that it is an entry appended to the list `events` is
the model's form (DESIGN CHOICE, log 21; R285 lets a model drop warnings). -/
def Obligations.PlaneSelectsOrWarns : Prop :=
  ∀ (x : Nibble) (s : State),
    (x.toNat ≤ 3 → ∃ t, exec (.plane x) s = .next t ∧ t.planeMask.toNat = x.toNat ∧
      t = { s with planeMask := t.planeMask, pc := s.pc + 2 } ∧ SameBytes s t) ∧
    (3 < x.toNat → exec (.plane x) s =
      .next { s with events := s.events ++ [.warn (.planeRange x)], pc := s.pc + 2 })

/-- 41_framebuffer.md R160: 8192 values, `(plane1 << 1) | plane0` of cell (x, y) at index `y*128 + x`. -/
def Obligations.FrameComposesPlanes : Prop :=
  ∀ s : State, s.composite.length = 8192 ∧ ∀ x y : Nat, x < 128 → y < 64 →
    ∃ v : BitVec 2, s.composite[y * 128 + x]? = some v ∧
      v.toNat = 2 * (cellOf s.plane1 x y).toNat + (cellOf s.plane0 x y).toNat

/-! ## Register file and ALU -/

/-- 42_alu.md R170, R171: no flag, and VF is an ordinary destination. -/
def Obligations.ImmediateFormsWriteRegister : Prop :=
  ∀ (x : Reg) (nn : Byte) (s : State),
    (∃ t, exec (.ldImm x nn) s = .next t ∧ t.reg x = nn ∧ OnlyRegs s t [x]) ∧
    (∃ t, exec (.addImm x nn) s = .next t ∧ (t.reg x).toNat = ((s.reg x).toNat + nn.toNat) % 256 ∧ OnlyRegs s t [x])

/-- 42_alu.md section 3, 8XY0 (the copy is the spec's general knowledge G2, log 17). -/
def Obligations.CopyWritesRegister : Prop :=
  ∀ (x y : Reg) (s : State), ∃ t, exec (.ldReg x y) s = .next t ∧ t.reg x = s.reg y ∧ OnlyRegs s t [x]

/-- 42_alu.md R173, R174, R175: bit by bit; in CHIP8 mode VF ends 0, whatever X. -/
def Obligations.LogicFormsWriteRegister : Prop :=
  ∀ (i : Reg → Reg → Instr) (f : Bool → Bool → Bool),
    (i = .orReg ∧ f = or ∨ i = .andReg ∧ f = and ∨ i = .xorReg ∧ f = xor) → ∀ (x y : Reg) (s : State),
    ∃ t, exec (i x y) s = .next t ∧
      (s.mode = .chip8 → t.reg 15 = 0) ∧
      (x ≠ 15 ∨ s.mode ≠ .chip8 → ∀ k < 8, (t.reg x).getLsbD k = f ((s.reg x).getLsbD k) ((s.reg y).getLsbD k)) ∧
      OnlyRegs s t (if s.mode = .chip8 then [x, 15] else [x])

/-- 42_alu.md R176: the 9-bit sum; the flag is written last, so it is what VF holds also when X = 0xF. -/
def Obligations.AddSetsCarry : Prop :=
  ∀ (x y : Reg) (s : State), ∃ t, exec (.addReg x y) s = .next t ∧
    (x ≠ 15 → (t.reg x).toNat = ((s.reg x).toNat + (s.reg y).toNat) % 256) ∧
    t.reg 15 = (if 255 < (s.reg x).toNat + (s.reg y).toNat then 1 else 0) ∧ OnlyRegs s t [x, 15]

/-- 42_alu.md R177, R179: both differences, with VF the not-borrow of the values before the operation. -/
def Obligations.SubtractSetsNotBorrow : Prop :=
  ∀ (x y : Reg) (s : State),
    (∃ t, exec (.sub x y) s = .next t ∧
      (x ≠ 15 → ((t.reg x).toNat : Int) = (((s.reg x).toNat : Int) - (s.reg y).toNat) % 256) ∧
      t.reg 15 = (if (s.reg y).toNat ≤ (s.reg x).toNat then 1 else 0) ∧ OnlyRegs s t [x, 15]) ∧
    (∃ t, exec (.subn x y) s = .next t ∧
      (x ≠ 15 → ((t.reg x).toNat : Int) = (((s.reg y).toNat : Int) - (s.reg x).toNat) % 256) ∧
      t.reg 15 = (if (s.reg x).toNat ≤ (s.reg y).toNat then 1 else 0) ∧ OnlyRegs s t [x, 15])

/-- 42_alu.md R178, R180: the value shifted is VX in SCHIP mode and VY in the others; VF is the bit shifted out. -/
def Obligations.ShiftsSetShiftedOutBit : Prop :=
  ∀ (x y : Reg) (s : State) (v : Nat), v = (if s.mode = .schip then s.reg x else s.reg y).toNat →
    (∃ t, exec (.shr x y) s = .next t ∧ (x ≠ 15 → (t.reg x).toNat = v / 2) ∧ (t.reg 15).toNat = v % 2 ∧
      OnlyRegs s t [x, 15]) ∧
    (∃ t, exec (.shl x y) s = .next t ∧ (x ≠ 15 → (t.reg x).toNat = v * 2 % 256) ∧ (t.reg 15).toNat = v / 128 ∧
      OnlyRegs s t [x, 15])

/-- 42_alu.md section 4 (R190): the masked draw; the draw is the free value `Config.rnd` (log 7), and the next RND draws afresh. -/
def Obligations.RandomMasksFreshByte : Prop :=
  ∀ (x : Reg) (nn : Byte) (s : State), ∃ t, exec (.rnd x nn) s = .next t ∧
    (∀ k < 8, (t.reg x).getLsbD k = ((Config.rnd s.fresh).getLsbD k && nn.getLsbD k)) ∧
    t = { s with v := t.v, pc := s.pc + 2, fresh := s.fresh + 1 } ∧ (∀ r, r ≠ x → t.reg r = s.reg r) ∧ SameBytes s t

/-! ## Sprites -/

/-- 43_sprite.md section 2 (R201): in CHIP8 mode a DRW in a step whose ordinal is no multiple of 4 changes nothing. -/
def Obligations.DrawRetriesUnderDisplayWait : Prop :=
  ∀ (x y : Reg) (n : Nibble) (s : State), s.mode = .chip8 → s.cycleCounter.toNat % 4 ≠ 0 →
    exec (.drw x y n) s = .next s

/-- 43_sprite.md section 1: a performed draw; what it may change, and that VF ends 0 or 1 and `dirty` set. -/
def Obligations.DrawChangesPlanesAndVf : Prop :=
  ∀ (x y : Reg) (n : Nibble) (s : State), DrawsNow s → ∃ t, exec (.drw x y n) s = .next t ∧
    t = { s with v := t.v, plane0 := t.plane0, plane1 := t.plane1, dirty := true, pc := s.pc + 2 } ∧
    (∀ r, r ≠ 15 → t.reg r = s.reg r) ∧ (t.reg 15 = 0 ∨ t.reg 15 = 1) ∧
    (∀ p : Fin 2, s.planeMask.getLsbD p.val = false → t.plane p = s.plane p) ∧ SameBytes s t

/-- 43_sprite.md sections 1 and 2 (R200, R202 to R206, R209; wrapping of the sprite's addresses is the spec's decision
D4): a performed draw toggles exactly the cells of the selected planes that a 1 bit of the sprite falls on, and VF is 1
exactly if one of them was 1. -/
def Obligations.DrawTogglesCoveredCells : Prop :=
  ∀ (x y : Reg) (n : Nibble) (s : State), DrawsNow s → ∃ t, exec (.drw x y n) s = .next t ∧
    (∀ (p : Fin 2) (px py : Nat), px < 128 → py < 64 →
      (cellOf (t.plane p) px py ≠ cellOf (s.plane p) px py ↔
        s.planeMask.getLsbD p.val = true ∧ Covers s x y n px py)) ∧
    (t.reg 15 = 1 ↔ ∃ (p : Fin 2) (px py : Nat), px < 128 ∧ py < 64 ∧ s.planeMask.getLsbD p.val = true ∧
      cellOf (s.plane p) px py = true ∧ Covers s x y n px py)

/-- 43_sprite.md R208: a second draw of the same sprite at the same place restores the planes, and its VF is 1 exactly if
the first draw set a cell. -/
def Obligations.SecondDrawUndoesFirst : Prop :=
  ∀ (x y : Reg) (n : Nibble) (s t u w : State), DrawsNow s → DrawsNow u →
    exec (.drw x y n) s = .next t → exec (.drw x y n) u = .next w →
    u.mode = s.mode → u.idx = s.idx → SameBytes s u → u.hires = s.hires → u.planeMask = s.planeMask →
    u.reg x = s.reg x → u.reg y = s.reg y → u.plane0 = t.plane0 → u.plane1 = t.plane1 →
    w.plane0 = s.plane0 ∧ w.plane1 = s.plane1 ∧
    (w.reg 15 = 1 ↔ ∃ (p : Fin 2) (px py : Nat), px < 128 ∧ py < 64 ∧
      cellOf (s.plane p) px py = false ∧ cellOf (t.plane p) px py = true)

/-! ## Keypad -/

/-- 44_input.md section on FX0A (R223; which of several released keys is taken is free, the spec's decision D11, log 8): on
a release edge the register gets the index of a released key; without one nothing changes. -/
def Obligations.KeyWaitTakesReleasedKey : Prop :=
  ∀ (x : Reg) (s : State),
    ((∃ k : Fin 16, s.prevKeys[k.val] = true ∧ s.keys[k.val] = false) →
      ∃ t, exec (.ldVxK x) s = .next t ∧
        (∃ k : Fin 16, s.prevKeys[k.val] = true ∧ s.keys[k.val] = false ∧ (t.reg x).toNat = k.val) ∧
        t = { s with v := t.v, pc := s.pc + 2, fresh := t.fresh } ∧ (∀ r, r ≠ x → t.reg r = s.reg r) ∧ SameBytes s t) ∧
    ((∀ k : Fin 16, s.prevKeys[k.val] = true → s.keys[k.val] = true) → exec (.ldVxK x) s = .next s)

/-! ## Index register and memory -/

/-- 45_memory_index.md R230. -/
def Obligations.LoadIndexImmediate : Prop :=
  ∀ (nnn : Imm12) (s : State), ∃ t, exec (.ldI nnn) s = .next t ∧ t.idx.toNat = nnn.toNat ∧
    t = { s with idx := t.idx, pc := s.pc + 2 } ∧ SameBytes s t

/-- 45_memory_index.md section 2 (R231; the byte order of NNNN is the spec's decision D14): the four bytes F0 00 b2 b3 at
the program counter decode to the long load, which sets `idx` to b2 b3 and moves on by 4. -/
def Obligations.LongLoadConsumesFourBytes : Prop :=
  ∀ (s : State), s.byteAt s.pc = 0xF0 → s.byteAt (s.pc + 1) = 0x00 →
    ∃ w : Word, decode (bytesAtPc s) = .instr (.ldlI w) [] ∧
      w.toNat = (s.byteAt (s.pc + 2)).toNat * 256 + (s.byteAt (s.pc + 3)).toNat ∧
      ∃ t, exec (.ldlI w) s = .next t ∧ t = { s with idx := w, pc := s.pc + 4 } ∧ SameBytes s t

/-- 45_memory_index.md section 2 (R232, R233, R234; wrapping is the spec's decision D4, the factors its derivation, the
unclamped digits its decision D10): the high font's address is the parameter HIRES_FONT_OFFSET. -/
def Obligations.IndexSumsWrap : Prop :=
  ∀ (x : Reg) (s : State),
    (∃ t, exec (.addI x) s = .next t ∧ t.idx.toNat = (s.idx.toNat + (s.reg x).toNat) % 65536 ∧
      t = { s with idx := t.idx, pc := s.pc + 2 } ∧ SameBytes s t) ∧
    (∃ t, exec (.ldF x) s = .next t ∧ t.idx.toNat = 0x50 + 5 * ((s.reg x).toNat % 16) ∧
      t = { s with idx := t.idx, pc := s.pc + 2 } ∧ SameBytes s t) ∧
    (∃ t, exec (.ldHf x) s = .next t ∧ t.idx.toNat = (s.params.hiresFontOffset.toNat + 10 * ((s.reg x).toNat % 16)) % 65536 ∧
      t = { s with idx := t.idx, pc := s.pc + 2 } ∧ SameBytes s t)

/-- 45_memory_index.md section 3 (R235; the order of the digits is the spec's general knowledge G4, log 17). -/
def Obligations.BcdStoresThreeDigits : Prop :=
  ∀ (x : Reg) (s : State), s.ram.wf s.params → ∃ t, exec (.ldB x) s = .next t ∧
    (t.byteAt s.idx).toNat = (s.reg x).toNat / 100 ∧ (t.byteAt (s.idx + 1)).toNat = (s.reg x).toNat / 10 % 10 ∧
    (t.byteAt (s.idx + 2)).toNat = (s.reg x).toNat % 10 ∧ SameBytesOutside s t s.idx 3 ∧
    t = { s with ram := t.ram, pc := s.pc + 2 }

/-- 45_memory_index.md section 3 (R237; that the addresses and `idx` wrap modulo 65536 is the spec's decision D4, log 13). -/
def Obligations.StoreRegistersAtIndex : Prop :=
  ∀ (x : Reg) (s : State), s.ram.wf s.params → ∃ t, exec (.storeRegs x) s = .next t ∧
    (∀ r : Reg, r ≤ x → t.byteAt (s.idx + BitVec.ofNat 16 r.val) = s.reg r) ∧
    SameBytesOutside s t s.idx (x.val + 1) ∧
    t.idx = (if s.mode = .schip then s.idx else s.idx + BitVec.ofNat 16 (x.val + 1)) ∧
    t = { s with ram := t.ram, idx := t.idx, pc := s.pc + 2 }

/-- 45_memory_index.md section 3 (R238; wrapping is the spec's decision D4, log 13). -/
def Obligations.LoadRegistersFromIndex : Prop :=
  ∀ (x : Reg) (s : State), ∃ t, exec (.loadRegs x) s = .next t ∧
    (∀ r : Reg, r ≤ x → t.reg r = s.byteAt (s.idx + BitVec.ofNat 16 r.val)) ∧
    (∀ r : Reg, x < r → t.reg r = s.reg r) ∧
    t.idx = (if s.mode = .schip then s.idx else s.idx + BitVec.ofNat 16 (x.val + 1)) ∧
    t = { s with v := t.v, idx := t.idx, pc := s.pc + 2 } ∧ SameBytes s t

/-- 45_memory_index.md section 3 (R239; wrapping is the spec's decision D4, log 13): the range walks up or down from `V[X]`, the addresses always up. -/
def Obligations.SaveRangeAtIndex : Prop :=
  ∀ (x y : Reg) (s : State), s.ram.wf s.params → ∃ t, exec (.save x y) s = .next t ∧
    (∀ (i : Nat) (r : Reg), i ≤ rangeSpan x y → r.val = rangeReg x y i →
      t.byteAt (s.idx + BitVec.ofNat 16 i) = s.reg r) ∧
    SameBytesOutside s t s.idx (rangeSpan x y + 1) ∧ t = { s with ram := t.ram, pc := s.pc + 2 }

/-- 45_memory_index.md section 3 (R240; wrapping is the spec's decision D4, log 13). -/
def Obligations.LoadRangeFromIndex : Prop :=
  ∀ (x y : Reg) (s : State), ∃ t, exec (.load x y) s = .next t ∧
    (∀ (i : Nat) (r : Reg), i ≤ rangeSpan x y → r.val = rangeReg x y i →
      t.reg r = s.byteAt (s.idx + BitVec.ofNat 16 i)) ∧
    (∀ r : Reg, (r < x ∧ r < y ∨ x < r ∧ y < r) → t.reg r = s.reg r) ∧
    t = { s with v := t.v, pc := s.pc + 2 } ∧ SameBytes s t

/-! ## Timers and audio -/

/-- 46_timers_audio.md section 1 (R250, R251; which encoding reads and which writes the delay timer is the spec's general
knowledge G3, log 17). -/
def Obligations.DelayTimerReadAndWrite : Prop :=
  ∀ (x : Reg) (s : State),
    (∃ t, exec (.ldVxDt x) s = .next t ∧ t.reg x = s.delayTimer ∧ OnlyRegs s t [x]) ∧
    (∃ t, exec (.ldDtVx x) s = .next t ∧ t = { s with delayTimer := s.reg x, pc := s.pc + 2 } ∧ SameBytes s t)

/-- 46_timers_audio.md section 1 (R252): the sound timer is written, and the tone level is not. -/
def Obligations.SoundTimerWrite : Prop :=
  ∀ (x : Reg) (s : State), ∃ t, exec (.ldStVx x) s = .next t ∧
    t = { s with soundTimer := s.reg x, pc := s.pc + 2 } ∧ t.audioOn = s.audioOn ∧ SameBytes s t

/-- 46_timers_audio.md section 2 (R253, R254; wrapping of the addresses is the spec's decision D4, log 13, and that the
outputs leave in this step its decision D26): the pattern and the pitch, each emitted in the step that changes it. -/
def Obligations.AudioOutputsFollowInstructions : Prop :=
  ∀ (x : Reg) (s : State),
    (∃ t, exec .audio s = .next t ∧
      (∀ i : Fin 16, t.audioPattern[i.val] = s.byteAt (s.idx + BitVec.ofNat 16 i.val)) ∧
      t.events = s.events ++ [.loadPattern t.audioPattern] ∧
      t = { s with audioPattern := t.audioPattern, events := t.events, pc := s.pc + 2 } ∧ SameBytes s t) ∧
    (∃ t, exec (.pitch x) s = .next t ∧
      t = { s with pitch := s.reg x, events := s.events ++ [.setPitch (s.reg x)], pc := s.pc + 2 } ∧ SameBytes s t)

/-! ## Flag store -/

/-- 47_storage.md, the flag store instructions (R266, R267, R268; that the store is a register file of the core is the
spec's decision D25, and that the save keeps the new flags whether or not the host can write the file is its treatment U7,
log 26): outside CHIP8 mode the flags up to the mode's reach are moved, the others keep their value, and a save is
persisted (by an event, log 21); in CHIP8 mode nothing happens. -/
def Obligations.FlagTransfersReachModeLimit : Prop :=
  ∀ (x : Reg) (s : State),
    (s.mode = .chip8 → exec (.ldRVx x) s = .next { s with pc := s.pc + 2 } ∧
      exec (.ldVxR x) s = .next { s with pc := s.pc + 2 }) ∧
    (s.mode ≠ .chip8 → ∃ t, exec (.ldRVx x) s = .next t ∧
      (∀ i : Fin 16, t.rpl[i.val] = if i.val ≤ lastFlag s.mode x then s.reg i else s.rpl[i.val]) ∧
      (∃ bytes : List Byte, t.events = s.events ++ [.persist bytes] ∧ bytes.length = lastFlag s.mode x + 1 ∧
        ∀ i : Fin 16, i.val ≤ lastFlag s.mode x → bytes[i.val]? = some (s.reg i)) ∧
      t = { s with rpl := t.rpl, events := t.events, pc := s.pc + 2 } ∧ SameBytes s t) ∧
    (s.mode ≠ .chip8 → ∃ t, exec (.ldVxR x) s = .next t ∧
      (∀ i : Fin 16, t.reg i = if i.val ≤ lastFlag s.mode x then s.rpl[i.val] else s.reg i) ∧
      t = { s with v := t.v, pc := s.pc + 2 } ∧ SameBytes s t)

/-- 47_storage.md section on R265, the storage round trip: a load of at most as many flags as were saved returns what was
saved. -/
def Obligations.FlagLoadReturnsSaved : Prop :=
  ∀ (x y : Reg) (s t u w : State), s.mode ≠ .chip8 → exec (.ldRVx x) s = .next t → u.mode = s.mode → u.rpl = t.rpl →
    y ≤ x → exec (.ldVxR y) u = .next w →
    ∀ i : Fin 16, i.val ≤ lastFlag s.mode y → w.reg i = s.reg i
end

