-- ==== Sys2Proof/Laws/Decode.lean ====
section
/-! SUPPORT. The fields of a word built from nibbles, and what the decoder does with the bytes of a word. -/

namespace Sys2Proof

theorem toNat_append {m n : Nat} (x : BitVec m) (y : BitVec n) : (x ++ y).toNat = x.toNat * 2 ^ n + y.toNat := by
  rw [BitVec.toNat_append, Nat.shiftLeft_eq, Nat.mul_comm, ← Nat.two_pow_add_eq_or_of_lt y.isLt]

theorem nibbles_toNat (a b c d : Nibble) :
    (nibbles a b c d).toNat = a.toNat * 4096 + b.toNat * 256 + c.toNat * 16 + d.toNat := by
  have h : (a ++ b ++ c ++ d).toNat = a.toNat * 4096 + b.toNat * 256 + c.toNat * 16 + d.toNat := by
    simp only [toNat_append]; omega
  exact h

theorem bigEndian_toNat (hi lo : Byte) : (bigEndian hi lo).toNat = hi.toNat * 256 + lo.toNat := by
  have h : (hi ++ lo).toNat = hi.toNat * 256 + lo.toNat := by simp only [toNat_append]; omega
  exact h

theorem extract_toNat {w : Nat} (x : BitVec w) (start len : Nat) :
    (x.extractLsb' start len).toNat = x.toNat / 2 ^ start % 2 ^ len := by
  rw [BitVec.extractLsb'_toNat, Nat.shiftRight_eq_div_pow]

/-! ## Fields of words -/

theorem fieldN1_nibbles (a b c d : Nibble) : fieldN1 (nibbles a b c d) = a := by
  apply BitVec.eq_of_toNat_eq; rw [fieldN1, extract_toNat, nibbles_toNat]; omega

theorem fieldX_nibbles (a b c d : Nibble) : fieldX (nibbles a b c d) = b := by
  apply BitVec.eq_of_toNat_eq; rw [fieldX, extract_toNat, nibbles_toNat]; omega

theorem fieldY_nibbles (a b c d : Nibble) : fieldY (nibbles a b c d) = c := by
  apply BitVec.eq_of_toNat_eq; rw [fieldY, extract_toNat, nibbles_toNat]; omega

theorem fieldN_nibbles (a b c d : Nibble) : fieldN (nibbles a b c d) = d := by
  apply BitVec.eq_of_toNat_eq; rw [fieldN, extract_toNat, nibbles_toNat]; omega

theorem nibbles_fields (w : Word) : nibbles (fieldN1 w) (fieldX w) (fieldY w) (fieldN w) = w := by
  apply BitVec.eq_of_toNat_eq
  simp only [nibbles_toNat, fieldN1, fieldX, fieldY, fieldN, extract_toNat]
  omega

theorem bigEndian_bytes (w : Word) : bigEndian (hiByte w) (loByte w) = w := by
  apply BitVec.eq_of_toNat_eq
  simp only [bigEndian_toNat, hiByte, loByte, extract_toNat]
  omega

theorem hiByte_bigEndian (hi lo : Byte) : hiByte (bigEndian hi lo) = hi := by
  apply BitVec.eq_of_toNat_eq; rw [hiByte, extract_toNat, bigEndian_toNat]; omega

theorem loByte_bigEndian (hi lo : Byte) : loByte (bigEndian hi lo) = lo := by
  apply BitVec.eq_of_toNat_eq; rw [loByte, extract_toNat, bigEndian_toNat]; omega

/-! ## Operand fields -/

theorem immOf_toNat (c d : Nibble) : (immOf c d).toNat = c.toNat * 16 + d.toNat := by
  have h : (c ++ d).toNat = c.toNat * 16 + d.toNat := by simp only [toNat_append]; omega
  exact h

theorem addrOf_toNat (b c d : Nibble) : (addrOf b c d).toNat = b.toNat * 256 + c.toNat * 16 + d.toNat := by
  have h : (b ++ c ++ d).toNat = b.toNat * 256 + c.toNat * 16 + d.toNat := by simp only [toNat_append]; omega
  exact h

theorem immOf_halves (nn : Byte) : immOf (immHi nn) (immLo nn) = nn := by
  apply BitVec.eq_of_toNat_eq
  simp only [immOf_toNat, immHi, immLo, extract_toNat]
  omega

theorem immHi_immOf (c d : Nibble) : immHi (immOf c d) = c := by
  apply BitVec.eq_of_toNat_eq; rw [immHi, extract_toNat, immOf_toNat]; omega

theorem immLo_immOf (c d : Nibble) : immLo (immOf c d) = d := by
  apply BitVec.eq_of_toNat_eq; rw [immLo, extract_toNat, immOf_toNat]; omega

theorem addrOf_thirds (nnn : Imm12) : addrOf (addrX nnn) (addrY nnn) (addrN nnn) = nnn := by
  apply BitVec.eq_of_toNat_eq
  simp only [addrOf_toNat, addrX, addrY, addrN, extract_toNat]
  omega

theorem addrX_addrOf (b c d : Nibble) : addrX (addrOf b c d) = b := by
  apply BitVec.eq_of_toNat_eq; rw [addrX, extract_toNat, addrOf_toNat]; omega

theorem addrY_addrOf (b c d : Nibble) : addrY (addrOf b c d) = c := by
  apply BitVec.eq_of_toNat_eq; rw [addrY, extract_toNat, addrOf_toNat]; omega

theorem addrN_addrOf (b c d : Nibble) : addrN (addrOf b c d) = d := by
  apply BitVec.eq_of_toNat_eq; rw [addrN, extract_toNat, addrOf_toNat]; omega

theorem regOf_ofReg (r : Reg) : regOf (ofReg r) = r := rfl

theorem ofReg_regOf (f : Nibble) : ofReg (regOf f) = f := rfl

/-! ## What the decoder does with words -/

/-- The bytes of one word are read as that word. -/
theorem decode_bytes (w : Word) (rest : List Byte) : decode (hiByte w :: loByte w :: rest) = decodeFrom w rest := by
  rw [decode, bigEndian_bytes]

/-- A two-byte instruction of the table. -/
theorem decodeFrom_some {w : Word} {i : Instr} (rest : List Byte) (hw : w ≠ 0xF000#16) (h : decodeShort w = some i) :
    decodeFrom w rest = .instr i rest := by
  simp only [decodeFrom, if_neg hw, h]

/-- A word outside the table. -/
theorem decodeFrom_none {w : Word} (rest : List Byte) (hw : w ≠ 0xF000#16) (h : decodeShort w = none) :
    decodeFrom w rest = .unknownOpcode w rest := by
  simp only [decodeFrom, if_neg hw, h]

/-- The word F000 alone is no two-byte instruction. -/
theorem decodeShort_long : decodeShort 0xF000#16 = none := by decide

/-- A word whose nibbles are a two-byte instruction's decodes to it. -/
theorem decode_nibbles {a b c d : Nibble} {i : Instr} (rest : List Byte) (h : decodeNibbles a b c d = some i) :
    decode (bytesOfWords [nibbles a b c d] ++ rest) = .instr i rest := by
  have hs : decodeShort (nibbles a b c d) = some i := by
    rw [decodeShort, fieldN1_nibbles, fieldX_nibbles, fieldY_nibbles, fieldN_nibbles, h]
  have hw : nibbles a b c d ≠ 0xF000#16 := by
    intro e
    rw [e, decodeShort_long] at hs
    cases hs
  exact (decode_bytes _ rest).trans (decodeFrom_some rest hw hs)

/-- The word F000 and the word after it are the long load. -/
theorem decode_long (nnnn : Word) (rest : List Byte) :
    decode (bytesOfWords [0xF000, nnnn] ++ rest) = .instr (.ldlI nnnn) rest := by
  have h : decodeFrom 0xF000#16 (hiByte nnnn :: loByte nnnn :: rest) = .instr (.ldlI nnnn) rest := by
    rw [decodeFrom, if_pos rfl, decodeLong, bigEndian_bytes]
  exact (decode_bytes 0xF000#16 _).trans h

end Sys2Proof
end

