-- ==== Sys2Proof/Laws/State.lean ====
section
/-! SUPPORT. Each named update of the state, field by field, so that no proof unfolds a record update. -/

namespace Sys2Proof.Machine

variable (s : State)

/-! ## `advance` -/

@[simp] theorem State.advance_mode : s.advance.mode = s.mode := rfl
@[simp] theorem State.advance_params : s.advance.params = s.params := rfl
@[simp] theorem State.advance_v : s.advance.v = s.v := rfl
@[simp] theorem State.advance_pc : s.advance.pc = s.pc + 2 := rfl
@[simp] theorem State.advance_idx : s.advance.idx = s.idx := rfl
@[simp] theorem State.advance_sp : s.advance.sp = s.sp := rfl
@[simp] theorem State.advance_stack : s.advance.stack = s.stack := rfl
@[simp] theorem State.advance_ram : s.advance.ram = s.ram := rfl
@[simp] theorem State.advance_plane0 : s.advance.plane0 = s.plane0 := rfl
@[simp] theorem State.advance_plane1 : s.advance.plane1 = s.plane1 := rfl
@[simp] theorem State.advance_dirty : s.advance.dirty = s.dirty := rfl
@[simp] theorem State.advance_planeMask : s.advance.planeMask = s.planeMask := rfl
@[simp] theorem State.advance_hires : s.advance.hires = s.hires := rfl
@[simp] theorem State.advance_delayTimer : s.advance.delayTimer = s.delayTimer := rfl
@[simp] theorem State.advance_soundTimer : s.advance.soundTimer = s.soundTimer := rfl
@[simp] theorem State.advance_cycleCounter : s.advance.cycleCounter = s.cycleCounter := rfl
@[simp] theorem State.advance_audioPattern : s.advance.audioPattern = s.audioPattern := rfl
@[simp] theorem State.advance_pitch : s.advance.pitch = s.pitch := rfl
@[simp] theorem State.advance_audioOn : s.advance.audioOn = s.audioOn := rfl
@[simp] theorem State.advance_rpl : s.advance.rpl = s.rpl := rfl
@[simp] theorem State.advance_keys : s.advance.keys = s.keys := rfl
@[simp] theorem State.advance_prevKeys : s.advance.prevKeys = s.prevKeys := rfl
@[simp] theorem State.advance_paused : s.advance.paused = s.paused := rfl
@[simp] theorem State.advance_finished : s.advance.finished = s.finished := rfl
@[simp] theorem State.advance_fault : s.advance.fault = s.fault := rfl
@[simp] theorem State.advance_hostError : s.advance.hostError = s.hostError := rfl
@[simp] theorem State.advance_inputs : s.advance.inputs = s.inputs := rfl
@[simp] theorem State.advance_fresh : s.advance.fresh = s.fresh := rfl
@[simp] theorem State.advance_events : s.advance.events = s.events := rfl

/-! ## `jump` -/

@[simp] theorem State.jump_mode (target : Word) : (s.jump target).mode = s.mode := rfl
@[simp] theorem State.jump_params (target : Word) : (s.jump target).params = s.params := rfl
@[simp] theorem State.jump_v (target : Word) : (s.jump target).v = s.v := rfl
@[simp] theorem State.jump_pc (target : Word) : (s.jump target).pc = target := rfl
@[simp] theorem State.jump_idx (target : Word) : (s.jump target).idx = s.idx := rfl
@[simp] theorem State.jump_sp (target : Word) : (s.jump target).sp = s.sp := rfl
@[simp] theorem State.jump_stack (target : Word) : (s.jump target).stack = s.stack := rfl
@[simp] theorem State.jump_ram (target : Word) : (s.jump target).ram = s.ram := rfl
@[simp] theorem State.jump_plane0 (target : Word) : (s.jump target).plane0 = s.plane0 := rfl
@[simp] theorem State.jump_plane1 (target : Word) : (s.jump target).plane1 = s.plane1 := rfl
@[simp] theorem State.jump_dirty (target : Word) : (s.jump target).dirty = s.dirty := rfl
@[simp] theorem State.jump_planeMask (target : Word) : (s.jump target).planeMask = s.planeMask := rfl
@[simp] theorem State.jump_hires (target : Word) : (s.jump target).hires = s.hires := rfl
@[simp] theorem State.jump_delayTimer (target : Word) : (s.jump target).delayTimer = s.delayTimer := rfl
@[simp] theorem State.jump_soundTimer (target : Word) : (s.jump target).soundTimer = s.soundTimer := rfl
@[simp] theorem State.jump_cycleCounter (target : Word) : (s.jump target).cycleCounter = s.cycleCounter := rfl
@[simp] theorem State.jump_audioPattern (target : Word) : (s.jump target).audioPattern = s.audioPattern := rfl
@[simp] theorem State.jump_pitch (target : Word) : (s.jump target).pitch = s.pitch := rfl
@[simp] theorem State.jump_audioOn (target : Word) : (s.jump target).audioOn = s.audioOn := rfl
@[simp] theorem State.jump_rpl (target : Word) : (s.jump target).rpl = s.rpl := rfl
@[simp] theorem State.jump_keys (target : Word) : (s.jump target).keys = s.keys := rfl
@[simp] theorem State.jump_prevKeys (target : Word) : (s.jump target).prevKeys = s.prevKeys := rfl
@[simp] theorem State.jump_paused (target : Word) : (s.jump target).paused = s.paused := rfl
@[simp] theorem State.jump_finished (target : Word) : (s.jump target).finished = s.finished := rfl
@[simp] theorem State.jump_fault (target : Word) : (s.jump target).fault = s.fault := rfl
@[simp] theorem State.jump_hostError (target : Word) : (s.jump target).hostError = s.hostError := rfl
@[simp] theorem State.jump_inputs (target : Word) : (s.jump target).inputs = s.inputs := rfl
@[simp] theorem State.jump_fresh (target : Word) : (s.jump target).fresh = s.fresh := rfl
@[simp] theorem State.jump_events (target : Word) : (s.jump target).events = s.events := rfl

/-! ## `setReg` -/

@[simp] theorem State.setReg_mode (r : Reg) (b : Byte) : (s.setReg r b).mode = s.mode := rfl
@[simp] theorem State.setReg_params (r : Reg) (b : Byte) : (s.setReg r b).params = s.params := rfl
@[simp] theorem State.setReg_v (r : Reg) (b : Byte) : (s.setReg r b).v = s.v.set r.val b := rfl
@[simp] theorem State.setReg_pc (r : Reg) (b : Byte) : (s.setReg r b).pc = s.pc := rfl
@[simp] theorem State.setReg_idx (r : Reg) (b : Byte) : (s.setReg r b).idx = s.idx := rfl
@[simp] theorem State.setReg_sp (r : Reg) (b : Byte) : (s.setReg r b).sp = s.sp := rfl
@[simp] theorem State.setReg_stack (r : Reg) (b : Byte) : (s.setReg r b).stack = s.stack := rfl
@[simp] theorem State.setReg_ram (r : Reg) (b : Byte) : (s.setReg r b).ram = s.ram := rfl
@[simp] theorem State.setReg_plane0 (r : Reg) (b : Byte) : (s.setReg r b).plane0 = s.plane0 := rfl
@[simp] theorem State.setReg_plane1 (r : Reg) (b : Byte) : (s.setReg r b).plane1 = s.plane1 := rfl
@[simp] theorem State.setReg_dirty (r : Reg) (b : Byte) : (s.setReg r b).dirty = s.dirty := rfl
@[simp] theorem State.setReg_planeMask (r : Reg) (b : Byte) : (s.setReg r b).planeMask = s.planeMask := rfl
@[simp] theorem State.setReg_hires (r : Reg) (b : Byte) : (s.setReg r b).hires = s.hires := rfl
@[simp] theorem State.setReg_delayTimer (r : Reg) (b : Byte) : (s.setReg r b).delayTimer = s.delayTimer := rfl
@[simp] theorem State.setReg_soundTimer (r : Reg) (b : Byte) : (s.setReg r b).soundTimer = s.soundTimer := rfl
@[simp] theorem State.setReg_cycleCounter (r : Reg) (b : Byte) : (s.setReg r b).cycleCounter = s.cycleCounter := rfl
@[simp] theorem State.setReg_audioPattern (r : Reg) (b : Byte) : (s.setReg r b).audioPattern = s.audioPattern := rfl
@[simp] theorem State.setReg_pitch (r : Reg) (b : Byte) : (s.setReg r b).pitch = s.pitch := rfl
@[simp] theorem State.setReg_audioOn (r : Reg) (b : Byte) : (s.setReg r b).audioOn = s.audioOn := rfl
@[simp] theorem State.setReg_rpl (r : Reg) (b : Byte) : (s.setReg r b).rpl = s.rpl := rfl
@[simp] theorem State.setReg_keys (r : Reg) (b : Byte) : (s.setReg r b).keys = s.keys := rfl
@[simp] theorem State.setReg_prevKeys (r : Reg) (b : Byte) : (s.setReg r b).prevKeys = s.prevKeys := rfl
@[simp] theorem State.setReg_paused (r : Reg) (b : Byte) : (s.setReg r b).paused = s.paused := rfl
@[simp] theorem State.setReg_finished (r : Reg) (b : Byte) : (s.setReg r b).finished = s.finished := rfl
@[simp] theorem State.setReg_fault (r : Reg) (b : Byte) : (s.setReg r b).fault = s.fault := rfl
@[simp] theorem State.setReg_hostError (r : Reg) (b : Byte) : (s.setReg r b).hostError = s.hostError := rfl
@[simp] theorem State.setReg_inputs (r : Reg) (b : Byte) : (s.setReg r b).inputs = s.inputs := rfl
@[simp] theorem State.setReg_fresh (r : Reg) (b : Byte) : (s.setReg r b).fresh = s.fresh := rfl
@[simp] theorem State.setReg_events (r : Reg) (b : Byte) : (s.setReg r b).events = s.events := rfl

/-! ## `setIdx` -/

@[simp] theorem State.setIdx_mode (w : Word) : (s.setIdx w).mode = s.mode := rfl
@[simp] theorem State.setIdx_params (w : Word) : (s.setIdx w).params = s.params := rfl
@[simp] theorem State.setIdx_v (w : Word) : (s.setIdx w).v = s.v := rfl
@[simp] theorem State.setIdx_pc (w : Word) : (s.setIdx w).pc = s.pc := rfl
@[simp] theorem State.setIdx_idx (w : Word) : (s.setIdx w).idx = w := rfl
@[simp] theorem State.setIdx_sp (w : Word) : (s.setIdx w).sp = s.sp := rfl
@[simp] theorem State.setIdx_stack (w : Word) : (s.setIdx w).stack = s.stack := rfl
@[simp] theorem State.setIdx_ram (w : Word) : (s.setIdx w).ram = s.ram := rfl
@[simp] theorem State.setIdx_plane0 (w : Word) : (s.setIdx w).plane0 = s.plane0 := rfl
@[simp] theorem State.setIdx_plane1 (w : Word) : (s.setIdx w).plane1 = s.plane1 := rfl
@[simp] theorem State.setIdx_dirty (w : Word) : (s.setIdx w).dirty = s.dirty := rfl
@[simp] theorem State.setIdx_planeMask (w : Word) : (s.setIdx w).planeMask = s.planeMask := rfl
@[simp] theorem State.setIdx_hires (w : Word) : (s.setIdx w).hires = s.hires := rfl
@[simp] theorem State.setIdx_delayTimer (w : Word) : (s.setIdx w).delayTimer = s.delayTimer := rfl
@[simp] theorem State.setIdx_soundTimer (w : Word) : (s.setIdx w).soundTimer = s.soundTimer := rfl
@[simp] theorem State.setIdx_cycleCounter (w : Word) : (s.setIdx w).cycleCounter = s.cycleCounter := rfl
@[simp] theorem State.setIdx_audioPattern (w : Word) : (s.setIdx w).audioPattern = s.audioPattern := rfl
@[simp] theorem State.setIdx_pitch (w : Word) : (s.setIdx w).pitch = s.pitch := rfl
@[simp] theorem State.setIdx_audioOn (w : Word) : (s.setIdx w).audioOn = s.audioOn := rfl
@[simp] theorem State.setIdx_rpl (w : Word) : (s.setIdx w).rpl = s.rpl := rfl
@[simp] theorem State.setIdx_keys (w : Word) : (s.setIdx w).keys = s.keys := rfl
@[simp] theorem State.setIdx_prevKeys (w : Word) : (s.setIdx w).prevKeys = s.prevKeys := rfl
@[simp] theorem State.setIdx_paused (w : Word) : (s.setIdx w).paused = s.paused := rfl
@[simp] theorem State.setIdx_finished (w : Word) : (s.setIdx w).finished = s.finished := rfl
@[simp] theorem State.setIdx_fault (w : Word) : (s.setIdx w).fault = s.fault := rfl
@[simp] theorem State.setIdx_hostError (w : Word) : (s.setIdx w).hostError = s.hostError := rfl
@[simp] theorem State.setIdx_inputs (w : Word) : (s.setIdx w).inputs = s.inputs := rfl
@[simp] theorem State.setIdx_fresh (w : Word) : (s.setIdx w).fresh = s.fresh := rfl
@[simp] theorem State.setIdx_events (w : Word) : (s.setIdx w).events = s.events := rfl

/-! ## `emit` -/

@[simp] theorem State.emit_mode (e : Event) : (s.emit e).mode = s.mode := rfl
@[simp] theorem State.emit_params (e : Event) : (s.emit e).params = s.params := rfl
@[simp] theorem State.emit_v (e : Event) : (s.emit e).v = s.v := rfl
@[simp] theorem State.emit_pc (e : Event) : (s.emit e).pc = s.pc := rfl
@[simp] theorem State.emit_idx (e : Event) : (s.emit e).idx = s.idx := rfl
@[simp] theorem State.emit_sp (e : Event) : (s.emit e).sp = s.sp := rfl
@[simp] theorem State.emit_stack (e : Event) : (s.emit e).stack = s.stack := rfl
@[simp] theorem State.emit_ram (e : Event) : (s.emit e).ram = s.ram := rfl
@[simp] theorem State.emit_plane0 (e : Event) : (s.emit e).plane0 = s.plane0 := rfl
@[simp] theorem State.emit_plane1 (e : Event) : (s.emit e).plane1 = s.plane1 := rfl
@[simp] theorem State.emit_dirty (e : Event) : (s.emit e).dirty = s.dirty := rfl
@[simp] theorem State.emit_planeMask (e : Event) : (s.emit e).planeMask = s.planeMask := rfl
@[simp] theorem State.emit_hires (e : Event) : (s.emit e).hires = s.hires := rfl
@[simp] theorem State.emit_delayTimer (e : Event) : (s.emit e).delayTimer = s.delayTimer := rfl
@[simp] theorem State.emit_soundTimer (e : Event) : (s.emit e).soundTimer = s.soundTimer := rfl
@[simp] theorem State.emit_cycleCounter (e : Event) : (s.emit e).cycleCounter = s.cycleCounter := rfl
@[simp] theorem State.emit_audioPattern (e : Event) : (s.emit e).audioPattern = s.audioPattern := rfl
@[simp] theorem State.emit_pitch (e : Event) : (s.emit e).pitch = s.pitch := rfl
@[simp] theorem State.emit_audioOn (e : Event) : (s.emit e).audioOn = s.audioOn := rfl
@[simp] theorem State.emit_rpl (e : Event) : (s.emit e).rpl = s.rpl := rfl
@[simp] theorem State.emit_keys (e : Event) : (s.emit e).keys = s.keys := rfl
@[simp] theorem State.emit_prevKeys (e : Event) : (s.emit e).prevKeys = s.prevKeys := rfl
@[simp] theorem State.emit_paused (e : Event) : (s.emit e).paused = s.paused := rfl
@[simp] theorem State.emit_finished (e : Event) : (s.emit e).finished = s.finished := rfl
@[simp] theorem State.emit_fault (e : Event) : (s.emit e).fault = s.fault := rfl
@[simp] theorem State.emit_hostError (e : Event) : (s.emit e).hostError = s.hostError := rfl
@[simp] theorem State.emit_inputs (e : Event) : (s.emit e).inputs = s.inputs := rfl
@[simp] theorem State.emit_fresh (e : Event) : (s.emit e).fresh = s.fresh := rfl
@[simp] theorem State.emit_events (e : Event) : (s.emit e).events = s.events ++ [e] := rfl

/-! ## `storeBytes` -/

@[simp] theorem State.storeBytes_mode (a : Word) (bs : List Byte) : (s.storeBytes a bs).mode = s.mode := rfl
@[simp] theorem State.storeBytes_params (a : Word) (bs : List Byte) : (s.storeBytes a bs).params = s.params := rfl
@[simp] theorem State.storeBytes_v (a : Word) (bs : List Byte) : (s.storeBytes a bs).v = s.v := rfl
@[simp] theorem State.storeBytes_pc (a : Word) (bs : List Byte) : (s.storeBytes a bs).pc = s.pc := rfl
@[simp] theorem State.storeBytes_idx (a : Word) (bs : List Byte) : (s.storeBytes a bs).idx = s.idx := rfl
@[simp] theorem State.storeBytes_sp (a : Word) (bs : List Byte) : (s.storeBytes a bs).sp = s.sp := rfl
@[simp] theorem State.storeBytes_stack (a : Word) (bs : List Byte) : (s.storeBytes a bs).stack = s.stack := rfl
@[simp] theorem State.storeBytes_ram (a : Word) (bs : List Byte) : (s.storeBytes a bs).ram = s.ram.writeBlock s.params a bs := rfl
@[simp] theorem State.storeBytes_plane0 (a : Word) (bs : List Byte) : (s.storeBytes a bs).plane0 = s.plane0 := rfl
@[simp] theorem State.storeBytes_plane1 (a : Word) (bs : List Byte) : (s.storeBytes a bs).plane1 = s.plane1 := rfl
@[simp] theorem State.storeBytes_dirty (a : Word) (bs : List Byte) : (s.storeBytes a bs).dirty = s.dirty := rfl
@[simp] theorem State.storeBytes_planeMask (a : Word) (bs : List Byte) : (s.storeBytes a bs).planeMask = s.planeMask := rfl
@[simp] theorem State.storeBytes_hires (a : Word) (bs : List Byte) : (s.storeBytes a bs).hires = s.hires := rfl
@[simp] theorem State.storeBytes_delayTimer (a : Word) (bs : List Byte) : (s.storeBytes a bs).delayTimer = s.delayTimer := rfl
@[simp] theorem State.storeBytes_soundTimer (a : Word) (bs : List Byte) : (s.storeBytes a bs).soundTimer = s.soundTimer := rfl
@[simp] theorem State.storeBytes_cycleCounter (a : Word) (bs : List Byte) : (s.storeBytes a bs).cycleCounter = s.cycleCounter := rfl
@[simp] theorem State.storeBytes_audioPattern (a : Word) (bs : List Byte) : (s.storeBytes a bs).audioPattern = s.audioPattern := rfl
@[simp] theorem State.storeBytes_pitch (a : Word) (bs : List Byte) : (s.storeBytes a bs).pitch = s.pitch := rfl
@[simp] theorem State.storeBytes_audioOn (a : Word) (bs : List Byte) : (s.storeBytes a bs).audioOn = s.audioOn := rfl
@[simp] theorem State.storeBytes_rpl (a : Word) (bs : List Byte) : (s.storeBytes a bs).rpl = s.rpl := rfl
@[simp] theorem State.storeBytes_keys (a : Word) (bs : List Byte) : (s.storeBytes a bs).keys = s.keys := rfl
@[simp] theorem State.storeBytes_prevKeys (a : Word) (bs : List Byte) : (s.storeBytes a bs).prevKeys = s.prevKeys := rfl
@[simp] theorem State.storeBytes_paused (a : Word) (bs : List Byte) : (s.storeBytes a bs).paused = s.paused := rfl
@[simp] theorem State.storeBytes_finished (a : Word) (bs : List Byte) : (s.storeBytes a bs).finished = s.finished := rfl
@[simp] theorem State.storeBytes_fault (a : Word) (bs : List Byte) : (s.storeBytes a bs).fault = s.fault := rfl
@[simp] theorem State.storeBytes_hostError (a : Word) (bs : List Byte) : (s.storeBytes a bs).hostError = s.hostError := rfl
@[simp] theorem State.storeBytes_inputs (a : Word) (bs : List Byte) : (s.storeBytes a bs).inputs = s.inputs := rfl
@[simp] theorem State.storeBytes_fresh (a : Word) (bs : List Byte) : (s.storeBytes a bs).fresh = s.fresh := rfl
@[simp] theorem State.storeBytes_events (a : Word) (bs : List Byte) : (s.storeBytes a bs).events = s.events := rfl

/-! ## `raiseFault` -/

@[simp] theorem State.raiseFault_mode (f : StackFault) : (s.raiseFault f).mode = s.mode := rfl
@[simp] theorem State.raiseFault_params (f : StackFault) : (s.raiseFault f).params = s.params := rfl
@[simp] theorem State.raiseFault_v (f : StackFault) : (s.raiseFault f).v = s.v := rfl
@[simp] theorem State.raiseFault_pc (f : StackFault) : (s.raiseFault f).pc = s.pc := rfl
@[simp] theorem State.raiseFault_idx (f : StackFault) : (s.raiseFault f).idx = s.idx := rfl
@[simp] theorem State.raiseFault_sp (f : StackFault) : (s.raiseFault f).sp = s.sp := rfl
@[simp] theorem State.raiseFault_stack (f : StackFault) : (s.raiseFault f).stack = s.stack := rfl
@[simp] theorem State.raiseFault_ram (f : StackFault) : (s.raiseFault f).ram = s.ram := rfl
@[simp] theorem State.raiseFault_plane0 (f : StackFault) : (s.raiseFault f).plane0 = s.plane0 := rfl
@[simp] theorem State.raiseFault_plane1 (f : StackFault) : (s.raiseFault f).plane1 = s.plane1 := rfl
@[simp] theorem State.raiseFault_dirty (f : StackFault) : (s.raiseFault f).dirty = s.dirty := rfl
@[simp] theorem State.raiseFault_planeMask (f : StackFault) : (s.raiseFault f).planeMask = s.planeMask := rfl
@[simp] theorem State.raiseFault_hires (f : StackFault) : (s.raiseFault f).hires = s.hires := rfl
@[simp] theorem State.raiseFault_delayTimer (f : StackFault) : (s.raiseFault f).delayTimer = s.delayTimer := rfl
@[simp] theorem State.raiseFault_soundTimer (f : StackFault) : (s.raiseFault f).soundTimer = s.soundTimer := rfl
@[simp] theorem State.raiseFault_cycleCounter (f : StackFault) : (s.raiseFault f).cycleCounter = s.cycleCounter := rfl
@[simp] theorem State.raiseFault_audioPattern (f : StackFault) : (s.raiseFault f).audioPattern = s.audioPattern := rfl
@[simp] theorem State.raiseFault_pitch (f : StackFault) : (s.raiseFault f).pitch = s.pitch := rfl
@[simp] theorem State.raiseFault_audioOn (f : StackFault) : (s.raiseFault f).audioOn = s.audioOn := rfl
@[simp] theorem State.raiseFault_rpl (f : StackFault) : (s.raiseFault f).rpl = s.rpl := rfl
@[simp] theorem State.raiseFault_keys (f : StackFault) : (s.raiseFault f).keys = s.keys := rfl
@[simp] theorem State.raiseFault_prevKeys (f : StackFault) : (s.raiseFault f).prevKeys = s.prevKeys := rfl
@[simp] theorem State.raiseFault_paused (f : StackFault) : (s.raiseFault f).paused = s.paused := rfl
@[simp] theorem State.raiseFault_finished (f : StackFault) : (s.raiseFault f).finished = s.finished := rfl
@[simp] theorem State.raiseFault_fault (f : StackFault) : (s.raiseFault f).fault = some f := rfl
@[simp] theorem State.raiseFault_hostError (f : StackFault) : (s.raiseFault f).hostError = s.hostError := rfl
@[simp] theorem State.raiseFault_inputs (f : StackFault) : (s.raiseFault f).inputs = s.inputs := rfl
@[simp] theorem State.raiseFault_fresh (f : StackFault) : (s.raiseFault f).fresh = s.fresh := rfl
@[simp] theorem State.raiseFault_events (f : StackFault) : (s.raiseFault f).events = s.events := rfl

/-! ## `updatePlanes` -/

@[simp] theorem State.updatePlanes_mode (f : Plane → Plane) : (s.updatePlanes f).mode = s.mode := rfl
@[simp] theorem State.updatePlanes_params (f : Plane → Plane) : (s.updatePlanes f).params = s.params := rfl
@[simp] theorem State.updatePlanes_v (f : Plane → Plane) : (s.updatePlanes f).v = s.v := rfl
@[simp] theorem State.updatePlanes_pc (f : Plane → Plane) : (s.updatePlanes f).pc = s.pc := rfl
@[simp] theorem State.updatePlanes_idx (f : Plane → Plane) : (s.updatePlanes f).idx = s.idx := rfl
@[simp] theorem State.updatePlanes_sp (f : Plane → Plane) : (s.updatePlanes f).sp = s.sp := rfl
@[simp] theorem State.updatePlanes_stack (f : Plane → Plane) : (s.updatePlanes f).stack = s.stack := rfl
@[simp] theorem State.updatePlanes_ram (f : Plane → Plane) : (s.updatePlanes f).ram = s.ram := rfl
@[simp] theorem State.updatePlanes_plane0 (f : Plane → Plane) : (s.updatePlanes f).plane0 = if s.selected 0 then f s.plane0 else s.plane0 := rfl
@[simp] theorem State.updatePlanes_plane1 (f : Plane → Plane) : (s.updatePlanes f).plane1 = if s.selected 1 then f s.plane1 else s.plane1 := rfl
@[simp] theorem State.updatePlanes_dirty (f : Plane → Plane) : (s.updatePlanes f).dirty = true := rfl
@[simp] theorem State.updatePlanes_planeMask (f : Plane → Plane) : (s.updatePlanes f).planeMask = s.planeMask := rfl
@[simp] theorem State.updatePlanes_hires (f : Plane → Plane) : (s.updatePlanes f).hires = s.hires := rfl
@[simp] theorem State.updatePlanes_delayTimer (f : Plane → Plane) : (s.updatePlanes f).delayTimer = s.delayTimer := rfl
@[simp] theorem State.updatePlanes_soundTimer (f : Plane → Plane) : (s.updatePlanes f).soundTimer = s.soundTimer := rfl
@[simp] theorem State.updatePlanes_cycleCounter (f : Plane → Plane) : (s.updatePlanes f).cycleCounter = s.cycleCounter := rfl
@[simp] theorem State.updatePlanes_audioPattern (f : Plane → Plane) : (s.updatePlanes f).audioPattern = s.audioPattern := rfl
@[simp] theorem State.updatePlanes_pitch (f : Plane → Plane) : (s.updatePlanes f).pitch = s.pitch := rfl
@[simp] theorem State.updatePlanes_audioOn (f : Plane → Plane) : (s.updatePlanes f).audioOn = s.audioOn := rfl
@[simp] theorem State.updatePlanes_rpl (f : Plane → Plane) : (s.updatePlanes f).rpl = s.rpl := rfl
@[simp] theorem State.updatePlanes_keys (f : Plane → Plane) : (s.updatePlanes f).keys = s.keys := rfl
@[simp] theorem State.updatePlanes_prevKeys (f : Plane → Plane) : (s.updatePlanes f).prevKeys = s.prevKeys := rfl
@[simp] theorem State.updatePlanes_paused (f : Plane → Plane) : (s.updatePlanes f).paused = s.paused := rfl
@[simp] theorem State.updatePlanes_finished (f : Plane → Plane) : (s.updatePlanes f).finished = s.finished := rfl
@[simp] theorem State.updatePlanes_fault (f : Plane → Plane) : (s.updatePlanes f).fault = s.fault := rfl
@[simp] theorem State.updatePlanes_hostError (f : Plane → Plane) : (s.updatePlanes f).hostError = s.hostError := rfl
@[simp] theorem State.updatePlanes_inputs (f : Plane → Plane) : (s.updatePlanes f).inputs = s.inputs := rfl
@[simp] theorem State.updatePlanes_fresh (f : Plane → Plane) : (s.updatePlanes f).fresh = s.fresh := rfl
@[simp] theorem State.updatePlanes_events (f : Plane → Plane) : (s.updatePlanes f).events = s.events := rfl

end Sys2Proof.Machine
end

