-- ==== Sys2Proof/Laws/Memory.lean ====
section
/-! SUPPORT. What the memory operations do: read after write, blocks, and the canonical form that each keeps. -/

namespace Sys2Proof.Machine

variable {p : Params}

/-! ## The reset contents (20_memory.md R70 to R74) -/

theorem initialByte_fontLo (i : Nat) (h : i < 80) : initialByte p (0x0050 + i) = p.fontLo[i] := by
  have h1 : fontOffset.toNat = 0x0050 := rfl
  rw [initialByte, h1, if_pos (by omega), Nat.add_sub_cancel_left]
  simp [Vector.getD, h]

theorem initialByte_fontHi (hp : p.Legal) (i : Nat) (h : i < 100) :
    initialByte p (p.hiresFontOffset.toNat + i) = Config.fontHi i := by
  have h1 : fontOffset.toNat = 0x0050 := rfl
  have h2 := hp.2
  rw [initialByte, h1, if_neg (by omega), if_pos (by omega), Nat.add_sub_cancel_left]

theorem initialByte_zero (a : Nat) (hl : a < 0x0050 ∨ 0x00A0 ≤ a)
    (hh : a < p.hiresFontOffset.toNat ∨ p.hiresFontOffset.toNat + 100 ≤ a) : initialByte p a = 0 := by
  have h1 : fontOffset.toNat = 0x0050 := rfl
  rw [initialByte, h1, if_neg (by omega), if_neg (by omega)]

/-! ## One byte -/

theorem Memory.read_write_same (m : Memory) (a : Nat) (b : Byte) (h : m.wf p) : (m.write p a b).read p a = b := by
  induction m with
  | nil => simp only [Memory.write]; split <;> simp_all [Memory.read]
  | cons c rest ih =>
    obtain ⟨k, c⟩ := c
    have hrest : Memory.wf p rest :=
      ⟨(List.pairwise_cons.1 h.1).2, fun d hd => h.2 d (List.mem_cons_of_mem _ hd)⟩
    have absent : ∀ n, n ≤ k → Memory.read p rest n = initialByte p n := by
      intro n hn
      have hall := (List.pairwise_cons.1 h.1).1
      clear ih h hrest
      induction rest with
      | nil => rfl
      | cons d tail ih =>
        have hd := hall d (List.mem_cons_self ..)
        have : d.1 ≠ n := by simp at hd; omega
        simp [Memory.read, this, ih fun e he => hall e (List.mem_cons_of_mem _ he)]
    simp only [Memory.write]
    split
    · split
      · rename_i h1 h2
        rw [Memory.read, if_neg (by omega), absent a (by omega), h2]
      · simp [Memory.read]
    · split
      · rename_i h1 h2
        split
        · rw [absent a (by omega)]; simp_all
        · simp [Memory.read]
      · rename_i h1 h2
        rw [Memory.read, if_neg (by omega)]
        exact ih hrest

theorem Memory.read_write_other (m : Memory) (a n : Nat) (b : Byte) (hn : n ≠ a) :
    (m.write p a b).read p n = m.read p n := by
  induction m with
  | nil =>
    simp only [Memory.write]
    split
    · rfl
    · simp [Memory.read, Ne.symm hn]
  | cons c rest ih =>
    obtain ⟨k, c⟩ := c
    simp only [Memory.write]
    split
    · split
      · rfl
      · simp [Memory.read, Ne.symm hn]
    · split
      · rename_i h1 h2
        subst h2
        split <;> simp [Memory.read, Ne.symm hn]
      · simp only [Memory.read, ih]

theorem Memory.mem_write {m : Memory} {a : Nat} {b : Byte} {c : Host.Cell} (h : c ∈ m.write p a b) :
    c ∈ m ∨ c = (a, b) ∧ b ≠ initialByte p a := by
  induction m with
  | nil =>
    simp only [Memory.write] at h
    split at h <;> simp_all
  | cons d rest ih =>
    obtain ⟨k, d⟩ := d
    simp only [Memory.write] at h
    split at h
    · split at h
      · exact .inl h
      · rcases List.mem_cons.1 h with h | h
        · exact .inr ⟨h, by assumption⟩
        · exact .inl h
    · split at h
      · split at h
        · exact .inl (List.mem_cons_of_mem _ h)
        · rcases List.mem_cons.1 h with h | h
          · exact .inr ⟨h, by assumption⟩
          · exact .inl (List.mem_cons_of_mem _ h)
      · rcases List.mem_cons.1 h with h | h
        · exact .inl (h ▸ List.mem_cons_self ..)
        · rcases ih h with h | h
          · exact .inl (List.mem_cons_of_mem _ h)
          · exact .inr h

theorem Memory.wf_nil : Memory.wf p [] := ⟨List.Pairwise.nil, by simp⟩

theorem Memory.write_wf {m : Memory} (a : Nat) (b : Byte) (ha : a < 65536) (h : m.wf p) : (m.write p a b).wf p := by
  refine ⟨?_, ?_⟩
  · have hp := h.1
    clear h
    induction m with
    | nil => simp only [Memory.write]; split <;> simp
    | cons d rest ih =>
      obtain ⟨k, d⟩ := d
      have hall := (List.pairwise_cons.1 hp).1
      have hrest := (List.pairwise_cons.1 hp).2
      simp only [Memory.write]
      split
      · rename_i h1
        split
        · exact hp
        · refine List.pairwise_cons.2 ⟨?_, hp⟩
          intro e he
          rcases List.mem_cons.1 he with he | he
          · subst he; exact h1
          · exact lt_trans h1 (hall e he)
      · split
        · rename_i h1 h2
          subst h2
          split
          · exact hrest
          · exact List.pairwise_cons.2 ⟨hall, hrest⟩
        · refine List.pairwise_cons.2 ⟨?_, ih hrest⟩
          intro e he
          rcases Memory.mem_write he with he | ⟨he, -⟩
          · exact hall e he
          · subst he; show k < a; omega
  · intro c hc
    rcases Memory.mem_write hc with hc | ⟨rfl, hb⟩
    · exact h.2 c hc
    · exact ⟨ha, hb⟩

/-! ## Blocks -/

/-- One address further and `i` more is `i + 1` further. -/
theorem addr_succ (a : Word) (i : Nat) : a + BitVec.ofNat 16 (i + 1) = a + 1 + BitVec.ofNat 16 i := by
  apply BitVec.eq_of_toNat_eq
  have one : (1 : Word).toNat = 1 := rfl
  simp only [BitVec.toNat_add, BitVec.toNat_ofNat, one]
  omega

theorem Memory.writeBlock_wf {m : Memory} (a : Word) (bs : List Byte) (h : m.wf p) : (m.writeBlock p a bs).wf p := by
  induction bs generalizing m a with
  | nil => exact h
  | cons b rest ih => exact ih _ (Memory.write_wf _ _ a.isLt h)

theorem Memory.read_writeBlock_outside (m : Memory) (a : Word) (bs : List Byte) (n : Word)
    (h : ∀ i < bs.length, n ≠ a + BitVec.ofNat 16 i) : (m.writeBlock p a bs).read p n.toNat = m.read p n.toNat := by
  induction bs generalizing m a with
  | nil => rfl
  | cons b rest ih =>
    rw [Memory.writeBlock, ih]
    · refine Memory.read_write_other _ _ _ _ fun e => ?_
      exact h 0 (by simp) (by simpa using BitVec.eq_of_toNat_eq e)
    · intro i hi e
      refine h (i + 1) (by simpa using hi) ?_
      rw [e, addr_succ]

theorem Memory.read_writeBlock_inside (m : Memory) (a : Word) (bs : List Byte) (hm : m.wf p) (hlen : bs.length ≤ 65536)
    (i : Nat) (hi : i < bs.length) : (m.writeBlock p a bs).read p (a + BitVec.ofNat 16 i).toNat = bs[i] := by
  induction bs generalizing m a i with
  | nil => simp at hi
  | cons b rest ih =>
    rw [Memory.writeBlock]
    cases i with
    | zero =>
      rw [Memory.read_writeBlock_outside]
      · simpa using Memory.read_write_same m a.toNat b hm
      · intro j hj e
        simp only [List.length_cons] at hlen
        have : (BitVec.ofNat 16 0) = BitVec.ofNat 16 (j + 1) := by
          have e' : a + BitVec.ofNat 16 0 = a + BitVec.ofNat 16 (j + 1) := by
            rw [e, addr_succ]
          exact (BitVec.add_right_inj a).1 e'
        have := congrArg BitVec.toNat this
        simp only [BitVec.toNat_ofNat] at this
        omega
    | succ i =>
      rw [addr_succ]
      simp only [List.length_cons] at hlen hi
      exact ih _ _ (Memory.write_wf _ _ a.isLt hm) (by omega) i (by omega)

/-! ## The state's view -/

theorem State.byteAt_storeBytes_outside (s : State) (a : Word) (bs : List Byte) (n : Word)
    (h : ∀ i < bs.length, n ≠ a + BitVec.ofNat 16 i) : (s.storeBytes a bs).byteAt n = s.byteAt n :=
  Memory.read_writeBlock_outside _ _ _ _ h

theorem State.byteAt_storeBytes_inside (s : State) (a : Word) (bs : List Byte) (hm : s.ram.wf s.params) (hlen : bs.length ≤ 65536)
    (i : Nat) (hi : i < bs.length) : (s.storeBytes a bs).byteAt (a + BitVec.ofNat 16 i) = bs[i] :=
  Memory.read_writeBlock_inside _ _ _ hm hlen i hi

/-- A state's byte depends on its RAM and the font parameters alone. -/
theorem State.byteAt_congr {s t : State} (h : t.ram = s.ram) (hp : t.params = s.params) (a : Word) :
    t.byteAt a = s.byteAt a := by
  rw [State.byteAt, State.byteAt, h, hp]

theorem State.wordAt_congr {s t : State} (h : t.ram = s.ram) (hp : t.params = s.params) (a : Word) :
    t.wordAt a = s.wordAt a := by
  rw [State.wordAt, State.wordAt, State.byteAt_congr h hp, State.byteAt_congr h hp]

end Sys2Proof.Machine
end

