-- ==== Sys2Proof/Laws/Operands.lean ====
section
/-! SUPPORT. What the operand forms and the flag writes do: one lemma per shared operation. -/

namespace Sys2Proof.Machine

/-! ## Registers -/

theorem State.reg_congr {s t : State} (h : t.v = s.v) (r : Reg) : t.reg r = s.reg r := by
  rw [State.reg, State.reg, ← h]

@[simp] theorem State.reg_setReg_same (s : State) (r : Reg) (b : Byte) : (s.setReg r b).reg r = b := by
  simp [State.reg, State.setReg]

theorem State.reg_setReg_other (s : State) {r q : Reg} (b : Byte) (h : q ≠ r) : (s.setReg r b).reg q = s.reg q := by
  simp only [State.reg, State.setReg]
  exact Vector.getElem_set_ne _ _ (fun e => h (Fin.ext e.symm))

/-- The flag is what VF holds, whatever the destination. -/
theorem State.reg_setWithFlag_vf (s : State) (x : Reg) (b : Byte) (f : Bool) :
    (s.setWithFlag x b f).reg vf = flagByte f := State.reg_setReg_same ..

theorem State.reg_setWithFlag_dest (s : State) {x : Reg} (b : Byte) (f : Bool) (h : x ≠ vf) :
    (s.setWithFlag x b f).reg x = b := by
  rw [State.setWithFlag, State.reg_setReg_other _ _ h, State.reg_setReg_same]

theorem State.reg_setWithFlag_other (s : State) {x r : Reg} (b : Byte) (f : Bool) (hx : r ≠ x) (hv : r ≠ vf) :
    (s.setWithFlag x b f).reg r = s.reg r := by
  rw [State.setWithFlag, State.reg_setReg_other _ _ hv, State.reg_setReg_other _ _ hx]

/-- Only the registers change. -/
theorem State.setWithFlag_eq (s : State) (x : Reg) (b : Byte) (f : Bool) :
    s.setWithFlag x b f = { s with v := (s.setWithFlag x b f).v } := rfl

theorem State.setLogic_of_reset {s : State} (x : Reg) (b : Byte) (h : qVfReset s.mode = true) :
    s.setLogic x b = (s.setReg x b).setReg vf 0 := if_pos h

theorem State.setLogic_of_keep {s : State} (x : Reg) (b : Byte) (h : qVfReset s.mode = false) :
    s.setLogic x b = s.setReg x b := if_neg (by simp [h])

/-- Only the registers change. -/
theorem State.setLogic_eq (s : State) (x : Reg) (b : Byte) : s.setLogic x b = { s with v := (s.setLogic x b).v } := by
  unfold State.setLogic; split <;> rfl

theorem qVfReset_eq_true (m : Mode) : qVfReset m = true ↔ m = .chip8 := by cases m <;> decide

theorem qShiftVy_eq_false (m : Mode) : qShiftVy m = false ↔ m = .schip := by cases m <;> decide

theorem qMemInc_eq_false (m : Mode) : qMemInc m = false ↔ m = .schip := by cases m <;> decide

theorem qJumpVx_eq_true (m : Mode) : qJumpVx m = true ↔ m = .schip := by cases m <;> decide

theorem qWrap_eq_true (m : Mode) : qWrap m = true ↔ m = .xochip := by cases m <;> decide

/-! ## Skips -/

/-- A skip is a jump: nothing but the program counter changes. -/
theorem State.skipIf_eq_jump (s : State) (c : Bool) : s.skipIf c = s.jump (s.skipIf c).pc := by
  unfold State.skipIf; split
  · split <;> rfl
  · rfl

/-- The word F000 at an address, byte by byte. -/
theorem State.wordAt_eq_long (s : State) (a : Word) :
    s.wordAt a = 0xF000#16 ↔ s.byteAt a = 0xF0#8 ∧ s.byteAt (a + 1) = 0x00#8 := by
  unfold State.wordAt
  constructor
  · intro h
    have h1 := hiByte_bigEndian (s.byteAt a) (s.byteAt (a + 1))
    have h2 := loByte_bigEndian (s.byteAt a) (s.byteAt (a + 1))
    rw [h] at h1 h2
    exact ⟨h1.symm, h2.symm⟩
  · rintro ⟨h1, h2⟩
    rw [h1, h2]
    rfl

/-! ## Flag values and shift sources -/

theorem flagByte_toNat (b : Bool) : (flagByte b).toNat = b.toNat := by cases b <;> rfl

theorem flagByte_eq_one (b : Bool) : flagByte b = 1 ↔ b = true := by cases b <;> decide

/-- The shift source in each mode (42_alu.md R178, R180). -/
theorem State.shiftSource_eq (s : State) (x y : Reg) :
    s.shiftSource x y = if s.mode = .schip then s.reg x else s.reg y := by
  unfold State.shiftSource
  by_cases h : s.mode = .schip
  · rw [if_neg (by rw [h]; decide), if_pos h]
  · rw [if_pos (by revert h; cases s.mode <;> decide), if_neg h]

/-! ## Audio -/

/-- AUDIO writes one pattern of 16 bytes and emits that same pattern (46_timers_audio.md R253). -/
theorem execAudio_next (s : State) : ∃ p : Vector Byte 16,
    (∀ i : Fin 16, p[i.val] = s.byteAt (s.idx + BitVec.ofNat 16 i.val)) ∧
    execAudio s = .next (State.advance (State.emit { s with audioPattern := p } (.loadPattern p))) :=
  ⟨_, fun i => Vector.getElem_ofFn i.isLt, rfl⟩

/-! ## Literals and addresses -/

theorem zext8_toNat (b : Byte) : (zext8 b).toNat = b.toNat := by
  rw [zext8, BitVec.toNat_setWidth]; omega

theorem zext12_toNat (nnn : Imm12) : (zext12 nnn).toNat = nnn.toNat := by
  rw [zext12, BitVec.toNat_setWidth]; omega

theorem lowNibble_val (b : Byte) : (lowNibble b).val = b.toNat % 16 := by
  show (b.extractLsb' 0 4).toNat = _
  rw [extract_toNat]; omega

/-! ## Register ranges -/

theorem regRange_zero (x : Reg) : regRange 0 x = (List.range (x.val + 1)).map (Fin.ofNat 16) := by
  rw [regRange, if_pos (Fin.zero_le x)]
  simp

/-- Position `i` of a range holds the register the walk reaches after `i` steps. -/
theorem regRange_getElem (x y : Reg) (i : Nat) (hi : i < (regRange x y).length) :
    ((regRange x y)[i]).val = if x.val ≤ y.val then x.val + i else x.val - i := by
  have hx := x.isLt
  have hy := y.isLt
  by_cases h : x ≤ y
  · have hn : x.val ≤ y.val := h
    simp only [regRange, if_pos h] at hi ⊢
    simp only [List.length_map, List.length_range] at hi
    simp only [List.getElem_map, List.getElem_range, if_pos hn, Fin.val_ofNat]
    omega
  · have hn : ¬ x.val ≤ y.val := h
    simp only [regRange, if_neg h] at hi ⊢
    simp only [List.length_map, List.length_range] at hi
    simp only [List.getElem_map, List.getElem_range, if_neg hn, Fin.val_ofNat]
    omega

theorem regRange_length (x y : Reg) :
    (regRange x y).length = (if x.val ≤ y.val then y.val - x.val else x.val - y.val) + 1 := by
  by_cases h : x ≤ y
  · have hn : x.val ≤ y.val := h
    simp [regRange, if_pos h]
  · have hn : ¬ x.val ≤ y.val := h
    simp [regRange, if_neg h]

theorem regRange_nodup (x y : Reg) : (regRange x y).Nodup := by
  rw [List.nodup_iff_injective_get]
  intro i j e
  have hi := regRange_getElem x y i.val i.isLt
  have hj := regRange_getElem x y j.val j.isLt
  have e' : (regRange x y)[i.val] = (regRange x y)[j.val] := e
  rw [e', hj] at hi
  have li := i.isLt
  have lj := j.isLt
  have hl := regRange_length x y
  apply Fin.ext
  have := x.isLt
  have := y.isLt
  split at hi <;> split at hl <;> omega

/-! ## Loads of register lists -/

/-- Only the registers change. -/
theorem State.loadRegsFrom_eq (s : State) (a : Word) (rs : List Reg) :
    s.loadRegsFrom a rs = { s with v := (s.loadRegsFrom a rs).v } := by
  induction rs generalizing s a with
  | nil => rfl
  | cons r rest ih =>
    rw [State.loadRegsFrom, ih]
    rfl

theorem State.reg_loadRegsFrom_other (s : State) (a : Word) (rs : List Reg) {q : Reg} (h : q ∉ rs) :
    (s.loadRegsFrom a rs).reg q = s.reg q := by
  induction rs generalizing s a with
  | nil => rfl
  | cons r rest ih =>
    rw [State.loadRegsFrom, ih _ _ (List.not_mem_of_not_mem_cons h),
      State.reg_setReg_other _ _ (List.ne_of_not_mem_cons h)]

theorem State.reg_loadRegsFrom (s : State) (a : Word) (rs : List Reg) (hd : rs.Nodup) (i : Nat) (hi : i < rs.length) :
    (s.loadRegsFrom a rs).reg rs[i] = s.byteAt (a + BitVec.ofNat 16 i) := by
  induction rs generalizing s a i with
  | nil => simp at hi
  | cons r rest ih =>
    obtain ⟨hr, hrest⟩ := List.nodup_cons.1 hd
    rw [State.loadRegsFrom]
    cases i with
    | zero =>
      rw [List.getElem_cons_zero, State.reg_loadRegsFrom_other _ _ _ hr, State.reg_setReg_same]
      simp
    | succ i =>
      rw [List.getElem_cons_succ, ih _ _ hrest i (by simpa using hi), addr_succ]
      rfl

/-! ## The memory increment and the flag store -/

/-- Only the index register changes. -/
theorem State.memInc_eq (s : State) (x : Reg) :
    s.memInc x = { s with idx := if s.mode = .schip then s.idx else s.idx + BitVec.ofNat 16 (x.val + 1) } := by
  unfold State.memInc
  by_cases h : s.mode = .schip
  · rw [if_neg (by rw [h]; decide), if_pos h]
  · rw [if_pos (by revert h; cases s.mode <;> decide), if_neg h]
    rfl

theorem upsert_getElem (new old : Vector Byte 16) (last i : Fin 16) :
    (upsert new old last)[i.val] = if i.val ≤ last.val then new[i.val] else old[i.val] := by
  simp only [upsert, Vector.getElem_ofFn]
  rfl

theorem flagReach_chip8 (x : Reg) : flagReach .chip8 x = none := rfl

/-- Outside CHIP8 mode the last index is clamped to the mode's flag count (47_storage.md R268). -/
theorem flagReach_some {m : Mode} (x : Reg) (h : m ≠ .chip8) :
    ∃ last : Fin 16, flagReach m x = some last ∧ last.val = min x.val (if m = .schip then 7 else 15) := by
  have hx := x.isLt
  cases m with
  | chip8 => exact absurd rfl h
  | schip => exact ⟨_, rfl, by simp only [qFlags, Fin.val_ofNat]; simp⟩
  | xochip => exact ⟨_, rfl, by simp only [qFlags, Fin.val_ofNat]; simp⟩

/-- A save within reach, as one record update. -/
theorem execLdRVx_of_reach {s : State} {x : Reg} {last : Fin 16} (h : flagReach s.mode x = some last) :
    execLdRVx x s = .next { s with
      rpl := upsert s.v s.rpl last, events := s.events ++ [.persist ((regRange 0 last).map s.reg)], pc := s.pc + 2 } := by
  rw [execLdRVx, h]; rfl

/-- A load within reach, as one record update. -/
theorem execLdVxR_of_reach {s : State} {x : Reg} {last : Fin 16} (h : flagReach s.mode x = some last) :
    execLdVxR x s = .next { s with v := upsert s.rpl s.v last, pc := s.pc + 2 } := by
  rw [execLdVxR, h]; rfl

/-! ## Keys -/

theorem State.mem_releasedKeys (s : State) (k : Fin 16) :
    k ∈ s.releasedKeys ↔ s.prevKeys[k.val] = true ∧ s.keys[k.val] = false := by
  simp [State.releasedKeys]

end Sys2Proof.Machine
end

