-- ==== Sys2Proof/Laws/Display.lean ====
section
/-! SUPPORT. The plane operations cell by cell, and what a blit does to each cell. -/

namespace Sys2Proof.Machine

/-! ## Rows and cells -/

/-- Row y of a plane by number. -/
theorem Plane.row_of_lt (p : Plane) {y : Nat} (h : y < 64) : p.row y = p[y] := by
  simp [Plane.row, Vector.getD, h]

theorem Plane.scrollDown_row (p : Plane) (n : Nat) {y : Nat} (h : y < 64) :
    (p.scrollDown n)[y] = if n ≤ y then p.row (y - n) else 0 := by
  simp [Plane.scrollDown]

theorem Plane.scrollUp_row (p : Plane) (n : Nat) {y : Nat} (h : y < 64) :
    (p.scrollUp n)[y] = if y + n < 64 then p.row (y + n) else 0 := by
  simp [Plane.scrollUp]

theorem Plane.scrollRight4_row (p : Plane) {y : Nat} (h : y < 64) : (p.scrollRight4)[y] = p[y] <<< 4 := by
  simp [Plane.scrollRight4]

theorem Plane.scrollLeft4_row (p : Plane) {y : Nat} (h : y < 64) : (p.scrollLeft4)[y] = p[y] >>> 4 := by
  simp [Plane.scrollLeft4]

theorem Plane.clear_row {y : Nat} (h : y < 64) : (Plane.clear)[y] = 0 := by
  simp [Plane.clear]

/-- Two planes with the same cells are the same plane. -/
theorem Plane.ext_cell {p q : Plane} (h : ∀ x y, p.cell x y = q.cell x y) : p = q := by
  apply Vector.ext
  intro y hy
  apply BitVec.eq_of_getLsbD_eq
  intro x hx
  exact h ⟨x, hx⟩ ⟨y, hy⟩

/-! ## XOR of one cell -/

theorem Plane.cell_xorCell_same (p : Plane) (x : Fin 128) (y : Fin 64) (b : Bool) :
    (p.xorCell x y b).cell x y = (p.cell x y ^^ b) := by
  simp [Plane.cell, Plane.xorCell]

theorem Plane.cell_xorCell_other (p : Plane) (x x' : Fin 128) (y y' : Fin 64) (b : Bool) (h : (x', y') ≠ (x, y)) :
    (p.xorCell x y b).cell x' y' = p.cell x' y' := by
  by_cases hy : y' = y
  · subst hy
    have hx : x'.val ≠ x.val := fun e => h (by rw [Fin.ext e])
    simp only [Plane.cell, Plane.xorCell, Vector.getElem_set_self, BitVec.getLsbD_xor, BitVec.getLsbD_shiftLeft]
    by_cases hlt : x'.val < x.val
    · simp [hlt]
    · have h0 : x'.val - x.val ≠ 0 := by omega
      simp [h0]
  · have : y.val ≠ y'.val := fun e => hy (Fin.ext e.symm)
    simp only [Plane.cell, Plane.xorCell]
    rw [Vector.getElem_set_ne _ _ this]

/-! ## A blit of dots on distinct cells -/

/-- The cell of a dot. -/
def Dot.place (d : Dot) : Fin 128 × Fin 64 := (d.x, d.y)

/-- The sprite bit on a cell: some dot with bit 1 lies there. -/
def litAt (dots : List Dot) (x : Fin 128) (y : Fin 64) : Bool := dots.any fun d => d.place == (x, y) && d.bit

theorem foldl_blitDot_cell (dots : List Dot) (acc : Plane × Bool) (hd : (dots.map Dot.place).Nodup)
    (x : Fin 128) (y : Fin 64) :
    (dots.foldl blitDot acc).1.cell x y = (acc.1.cell x y ^^ litAt dots x y) := by
  induction dots generalizing acc with
  | nil => simp [litAt]
  | cons d rest ih =>
    obtain ⟨hfresh, hrest⟩ := List.nodup_cons.1 hd
    rw [List.foldl_cons, ih _ hrest]
    by_cases h : d.place = (x, y)
    · have hx : d.x = x := congrArg Prod.fst h
      have hy : d.y = y := congrArg Prod.snd h
      have hno : litAt rest x y = false := by
        rw [litAt, List.any_eq_false]
        intro e he
        have : e.place ≠ (x, y) := fun e' => hfresh (by rw [h, ← e']; exact List.mem_map_of_mem he)
        simp [this]
      have hyes : litAt (d :: rest) x y = d.bit := by
        have : litAt (d :: rest) x y = ((d.place == (x, y) && d.bit) || litAt rest x y) := rfl
        rw [this, hno, h]; simp
      rw [hno, hyes]
      subst hx hy
      simp [blitDot, Plane.cell_xorCell_same]
    · have hcons : litAt (d :: rest) x y = litAt rest x y := by
        have : litAt (d :: rest) x y = ((d.place == (x, y) && d.bit) || litAt rest x y) := rfl
        rw [this]; simp [h]
      rw [hcons]
      have := Plane.cell_xorCell_other acc.1 d.x x d.y y d.bit (fun e => h e.symm)
      simp [blitDot, this]

theorem foldl_blitDot_hit (dots : List Dot) (acc : Plane × Bool) (hd : (dots.map Dot.place).Nodup) :
    (dots.foldl blitDot acc).2 = true ↔ acc.2 = true ∨ ∃ d ∈ dots, d.bit = true ∧ acc.1.cell d.x d.y = true := by
  induction dots generalizing acc with
  | nil => simp
  | cons d rest ih =>
    obtain ⟨hfresh, hrest⟩ := List.nodup_cons.1 hd
    rw [List.foldl_cons, ih _ hrest]
    have hcell : ∀ e ∈ rest, (blitDot acc d).1.cell e.x e.y = acc.1.cell e.x e.y := by
      intro e he
      refine Plane.cell_xorCell_other acc.1 d.x e.x d.y e.y d.bit fun e' => hfresh ?_
      exact List.mem_map.2 ⟨e, he, e'⟩
    constructor
    · rintro (h | ⟨e, he, hb, hc⟩)
      · have h' : acc.2 = true ∨ acc.1.cell d.x d.y = true ∧ d.bit = true := by
          simpa [blitDot] using h
        rcases h' with h' | ⟨h1, h2⟩
        · exact .inl h'
        · exact .inr ⟨d, List.mem_cons_self .., h2, h1⟩
      · exact .inr ⟨e, List.mem_cons_of_mem _ he, hb, by rw [← hcell e he, hc]⟩
    · rintro (h | ⟨e, he, hb, hc⟩)
      · exact .inl (by simp [blitDot, h])
      · rcases List.mem_cons.1 he with rfl | he
        · exact .inl (by simp [blitDot, hb, hc])
        · exact .inr ⟨e, he, hb, by rw [hcell e he, hc]⟩

/-- A blit toggles the cells its 1 bits lie on. -/
theorem blit_cell (dots : List Dot) (p : Plane) (hd : (dots.map Dot.place).Nodup) (x : Fin 128) (y : Fin 64) :
    (blit dots p).1.cell x y = (p.cell x y ^^ litAt dots x y) := foldl_blitDot_cell dots (p, false) hd x y

/-- A blit collides exactly if a 1 bit lies on a cell that was 1. -/
theorem blit_hit (dots : List Dot) (p : Plane) (hd : (dots.map Dot.place).Nodup) :
    (blit dots p).2 = true ↔ ∃ x y, litAt dots x y = true ∧ p.cell x y = true := by
  rw [blit, foldl_blitDot_hit dots (p, false) hd]
  simp only [Bool.false_eq_true, false_or, litAt, List.any_eq_true]
  constructor
  · rintro ⟨d, hd, hb, hc⟩
    exact ⟨d.x, d.y, ⟨d, hd, by simp [Dot.place, hb]⟩, hc⟩
  · rintro ⟨x, y, ⟨d, hd, h⟩, hc⟩
    simp only [Dot.place, Bool.and_eq_true, beq_iff_eq, Prod.mk.injEq] at h
    obtain ⟨⟨rfl, rfl⟩, hb⟩ := h
    exact ⟨d, hd, hb, hc⟩

/-! ## The dots of a sprite -/

theorem mem_spriteDots (s : State) (sh : SpriteShape) (bx by0 : Nat) (d : Dot) :
    d ∈ s.spriteDots sh bx by0 ↔ ∃ r < sh.rows, ∃ c < sh.cols, ∃ dy < sh.scale, ∃ dx < sh.scale,
      s.spriteDot sh bx by0 r c dy dx = some d := by
  simp only [State.spriteDots, List.mem_flatMap, List.mem_filterMap, List.mem_range]

/-- What the dot of a sprite bit is, when it is not clipped. -/
theorem spriteDot_eq_some (s : State) (sh : SpriteShape) (bx by0 r c dy dx : Nat) (d : Dot) :
    s.spriteDot sh bx by0 r c dy dx = some d ↔
      d.bit = s.spriteBit sh.bytesPerRow r c ∧
      (if qWrap s.mode = true then
        (bx + c * sh.scale + dx) % 128 = d.x.val ∧ (by0 + r * sh.scale + dy) % 64 = d.y.val
      else bx + c * sh.scale + dx = d.x.val ∧ by0 + r * sh.scale + dy = d.y.val) := by
  obtain ⟨dx', dy', bit⟩ := d
  simp only [State.spriteDot, cellAt]
  by_cases hw : qWrap s.mode = true
  · simp only [hw, if_true, Option.map_some, Option.some.injEq, Dot.mk.injEq, Fin.ext_iff, Fin.val_ofNat]
    constructor
    · rintro ⟨h1, h2, h3⟩; exact ⟨h3.symm, h1, h2⟩
    · rintro ⟨h3, h1, h2⟩; exact ⟨h1, h2, h3.symm⟩
  · simp only [hw, Bool.false_eq_true, if_false]
    by_cases hc : bx + c * sh.scale + dx < 128 ∧ by0 + r * sh.scale + dy < 64
    · simp only [dif_pos hc, Option.map_some, Option.some.injEq, Dot.mk.injEq, Fin.ext_iff]
      constructor
      · rintro ⟨h1, h2, h3⟩; exact ⟨h3.symm, h1, h2⟩
      · rintro ⟨h3, h1, h2⟩; exact ⟨h1, h2, h3.symm⟩
    · simp only [dif_neg hc, Option.map_none]
      constructor
      · intro h; cases h
      · rintro ⟨-, h1, h2⟩
        have := dx'.isLt
        have := dy'.isLt
        exact absurd ⟨by omega, by omega⟩ hc

/-! ## No two dots of a sprite lie on one cell (43_sprite.md R207) -/

theorem nodup_flatMap_range {α : Type} {n : Nat} {f : Nat → List α} (hf : ∀ i < n, (f i).Nodup)
    (hd : ∀ i < n, ∀ j < n, ∀ a, a ∈ f i → a ∈ f j → i = j) : ((List.range n).flatMap f).Nodup := by
  rw [List.nodup_flatMap]
  refine ⟨fun i hi => hf i (List.mem_range.1 hi), ?_⟩
  refine List.Pairwise.imp_of_mem ?_ (List.nodup_range (n := n))
  intro i j hi hj hne a hai haj
  exact hne (hd i (List.mem_range.1 hi) j (List.mem_range.1 hj) a hai haj)

theorem nodup_filterMap_range {α : Type} {n : Nat} {f : Nat → Option α}
    (hd : ∀ i < n, ∀ j < n, ∀ a, f i = some a → f j = some a → i = j) : ((List.range n).filterMap f).Nodup := by
  have h : (List.range n).filterMap f = (List.range n).flatMap fun i => (f i).toList := by
    rw [List.filterMap_eq_flatMap_toList]
  rw [h]
  refine nodup_flatMap_range (fun i _ => ?_) fun i hi j hj a hai haj => hd i hi j hj a ?_ ?_
  · cases f i <;> simp
  · simpa using hai
  · simpa using haj

/-- The dots of a sprite that is narrower and lower than the buffer, as all are, lie on distinct cells, wrapped or not. -/
theorem spriteDots_nodup (s : State) (sh : SpriteShape) (bx by0 : Nat) (hs : sh.scale = 1 ∨ sh.scale = 2)
    (hc : sh.cols ≤ 16) (hr : sh.rows ≤ 16) : ((s.spriteDots sh bx by0).map Dot.place).Nodup := by
  -- one cell determines the sprite bit and the sub-pixel
  have key : ∀ r r' c c' dy dy' dx dx' : Nat, r < sh.rows → r' < sh.rows → c < sh.cols → c' < sh.cols →
      dy < sh.scale → dy' < sh.scale → dx < sh.scale → dx' < sh.scale → ∀ q,
      (s.spriteDot sh bx by0 r c dy dx).map Dot.place = some q →
      (s.spriteDot sh bx by0 r' c' dy' dx').map Dot.place = some q → r = r' ∧ c = c' ∧ dy = dy' ∧ dx = dx' := by
    intro r r' c c' dy dy' dx dx' h1 h2 h3 h4 h5 h6 h7 h8 q e e'
    obtain ⟨d, hd, rfl⟩ := Option.map_eq_some_iff.1 e
    obtain ⟨d', hd', e2⟩ := Option.map_eq_some_iff.1 e'
    have ex : d'.x.val = d.x.val := congrArg (fun p : Fin 128 × Fin 64 => p.1.val) e2
    have ey : d'.y.val = d.y.val := congrArg (fun p : Fin 128 × Fin 64 => p.2.val) e2
    have hd := ((spriteDot_eq_some s sh bx by0 r c dy dx d).1 hd).2
    have hd' := ((spriteDot_eq_some s sh bx by0 r' c' dy' dx' d').1 hd').2
    by_cases hw : qWrap s.mode = true
    · rw [if_pos hw] at hd hd'
      rcases hs with hs | hs <;> rw [hs] at hd hd' h5 h6 h7 h8 <;> omega
    · rw [if_neg hw] at hd hd'
      rcases hs with hs | hs <;> rw [hs] at hd hd' h5 h6 h7 h8 <;> omega
  simp only [State.spriteDots, List.map_flatMap, List.map_filterMap]
  have mem4 : ∀ r c dy q, q ∈ (List.range sh.scale).filterMap
      (fun dx => (s.spriteDot sh bx by0 r c dy dx).map Dot.place) →
      ∃ dx < sh.scale, (s.spriteDot sh bx by0 r c dy dx).map Dot.place = some q := by
    intro r c dy q h
    obtain ⟨dx, hdx, e⟩ := List.mem_filterMap.1 h
    exact ⟨dx, List.mem_range.1 hdx, e⟩
  have mem3 : ∀ r c q, q ∈ ((List.range sh.scale).flatMap fun dy => (List.range sh.scale).filterMap
      (fun dx => (s.spriteDot sh bx by0 r c dy dx).map Dot.place)) →
      ∃ dy < sh.scale, ∃ dx < sh.scale, (s.spriteDot sh bx by0 r c dy dx).map Dot.place = some q := by
    intro r c q h
    obtain ⟨dy, hdy, e⟩ := List.mem_flatMap.1 h
    exact ⟨dy, List.mem_range.1 hdy, mem4 r c dy q e⟩
  have mem2 : ∀ r q, q ∈ ((List.range sh.cols).flatMap fun c => (List.range sh.scale).flatMap fun dy =>
      (List.range sh.scale).filterMap (fun dx => (s.spriteDot sh bx by0 r c dy dx).map Dot.place)) →
      ∃ c < sh.cols, ∃ dy < sh.scale, ∃ dx < sh.scale,
        (s.spriteDot sh bx by0 r c dy dx).map Dot.place = some q := by
    intro r q h
    obtain ⟨c, hc', e⟩ := List.mem_flatMap.1 h
    exact ⟨c, List.mem_range.1 hc', mem3 r c q e⟩
  refine nodup_flatMap_range (fun r hr' => nodup_flatMap_range (fun c hc' => nodup_flatMap_range (fun dy hdy =>
    nodup_filterMap_range ?_) ?_) ?_) ?_
  · intro dx hdx dx' hdx' q e e'
    exact (key r r c c dy dy dx dx' hr' hr' hc' hc' hdy hdy hdx hdx' q e e').2.2.2
  · intro dy hdy dy' hdy' q e e'
    obtain ⟨dx, hdx, e⟩ := mem4 _ _ _ _ e
    obtain ⟨dx', hdx', e'⟩ := mem4 _ _ _ _ e'
    exact (key r r c c dy dy' dx dx' hr' hr' hc' hc' hdy hdy' hdx hdx' q e e').2.2.1
  · intro c hc' c' hc'' q e e'
    obtain ⟨dy, hdy, dx, hdx, e⟩ := mem3 _ _ _ e
    obtain ⟨dy', hdy', dx', hdx', e'⟩ := mem3 _ _ _ e'
    exact (key r r c c' dy dy' dx dx' hr' hr' hc' hc'' hdy hdy' hdx hdx' q e e').2.1
  · intro r hr' r' hr'' q e e'
    obtain ⟨c, hc', dy, hdy, dx, hdx, e⟩ := mem2 _ _ e
    obtain ⟨c', hc'', dy', hdy', dx', hdx', e'⟩ := mem2 _ _ e'
    exact (key r r' c c' dy dy' dx dx' hr' hr'' hc' hc'' hdy hdy' hdx hdx' q e e').1

theorem spriteShape_scale (hires : Bool) (n : Nibble) : (spriteShape hires n).scale = if hires then 1 else 2 := by
  unfold spriteShape; split <;> [split; skip] <;> rfl

theorem spriteShape_bounds (hires : Bool) (n : Nibble) :
    (spriteShape hires n).cols ≤ 16 ∧ (spriteShape hires n).rows ≤ 16 := by
  have := n.isLt
  unfold spriteShape
  split
  · split
    · exact ⟨le_refl _, le_refl _⟩
    · exact ⟨by show 8 ≤ 16; omega, by show n.toNat ≤ 16; omega⟩
  · exact ⟨by show 8 ≤ 16; omega, by show n.toNat ≤ 16; omega⟩

theorem drwDots_nodup (s : State) (x y : Reg) (n : Nibble) : ((s.drwDots x y n).map Dot.place).Nodup := by
  refine spriteDots_nodup s _ _ _ ?_ (spriteShape_bounds _ _).1 (spriteShape_bounds _ _).2
  rw [spriteShape_scale]
  split
  · exact .inl rfl
  · exact .inr rfl

/-- The dots depend on these parts of the state alone. -/
theorem drwDots_congr {s t : State} (x y : Reg) (n : Nibble) (hm : t.mode = s.mode) (hi : t.idx = s.idx)
    (hb : ∀ a, t.byteAt a = s.byteAt a) (hh : t.hires = s.hires) (hx : t.reg x = s.reg x) (hy : t.reg y = s.reg y) :
    t.drwDots x y n = s.drwDots x y n := by
  simp only [State.drwDots, State.spriteDots, State.spriteDot, State.spriteBit, State.spriteX, State.spriteY, hm, hi, hh,
    hx, hy, hb]

/-- The planes after an update of the selected ones. -/
theorem State.plane_updatePlanes (s : State) (f : Plane → Plane) (p : Fin 2) :
    (s.updatePlanes f).plane p = if s.planeMask.getLsbD p.val then f (s.plane p) else s.plane p := by
  match p with
  | 0 => rfl
  | 1 => rfl

/-- When DRW waits (43_sprite.md R201). -/
theorem State.drwWaits_iff (s : State) : s.drwWaits = true ↔ s.mode = .chip8 ∧ s.cycleCounter.toNat % 4 ≠ 0 := by
  unfold State.drwWaits
  cases s.mode <;> simp [qDispWait]

end Sys2Proof.Machine
end

