-- ==== Sys2Proof/Laws/Step.lean ====
section
/-! SUPPORT. What a step can do, said once: the run has ended, or the iteration is halted, or an instruction (or an unknown
word) runs on the sampled state. -/

namespace Sys2Proof.Machine

/-! ## Every meaning answers a next state -/

/-- No meaning stops (30_encoding.md R103). -/
theorem exec_total (i : Instr) (s : State) : ∃ t, exec i s = .next t := by
  have ite_next : ∀ (c : Prop) [Decidable c] (a b : State), ∃ t, (if c then (.next a : Result) else .next b) = .next t := by
    intro c _ a b
    split
    · exact ⟨a, rfl⟩
    · exact ⟨b, rfl⟩
  cases i with
  | ret => exact ite_next _ _ _
  | call nnn => exact ite_next _ _ _
  | jpV0 nnn => exact ite_next _ _ _
  | plane x => exact ite_next _ _ _
  | drw x y n => exact ite_next _ _ _
  | ldVxK x =>
    show ∃ t, execLdVxK x s = _
    unfold execLdVxK
    split <;> exact ⟨_, rfl⟩
  | ldRVx x =>
    show ∃ t, execLdRVx x s = _
    unfold execLdRVx
    split <;> exact ⟨_, rfl⟩
  | ldVxR x =>
    show ∃ t, execLdVxR x s = _
    unfold execLdVxR
    split <;> exact ⟨_, rfl⟩
  | _ => exact ⟨_, rfl⟩

/-- What is decoded is performed to a next state. -/
theorem perform_total (d : Decoded) (s : State) : ∃ t, perform d s = .next t := by
  cases d with
  | instr i rest => exact exec_total i s
  | unknownOpcode op rest => exact ⟨_, rfl⟩
  | truncated => exact ⟨_, rfl⟩

/-! ## The fetch -/

theorem State.fetchBytes_eq (s : State) :
    s.fetchBytes = [s.byteAt s.pc, s.byteAt (s.pc + 1), s.byteAt (s.pc + 2), s.byteAt (s.pc + 3)] := by
  have h2 : s.pc + 1 + 1 = s.pc + 2 := BitVec.add_assoc ..
  have h3 : s.pc + 2 + 1 = s.pc + 3 := BitVec.add_assoc ..
  show [_, _, _, _] = _
  rw [h2, h3]
  rfl

/-! ## The sample -/

@[simp] theorem State.sample_pc (s : State) (inp : Input) : (s.sample inp).pc = s.pc := by
  unfold State.sample State.dropInput; split <;> rfl

@[simp] theorem State.sample_ram (s : State) (inp : Input) : (s.sample inp).ram = s.ram := by
  unfold State.sample State.dropInput; split <;> rfl

@[simp] theorem State.sample_mode (s : State) (inp : Input) : (s.sample inp).mode = s.mode := by
  unfold State.sample State.dropInput; split <;> rfl

@[simp] theorem State.sample_params (s : State) (inp : Input) : (s.sample inp).params = s.params := by
  unfold State.sample State.dropInput; split <;> rfl

@[simp] theorem State.sample_stack (s : State) (inp : Input) : (s.sample inp).stack = s.stack := by
  unfold State.sample State.dropInput; split <;> rfl

@[simp] theorem State.sample_sp (s : State) (inp : Input) : (s.sample inp).sp = s.sp := by
  unfold State.sample State.dropInput; split <;> rfl

@[simp] theorem State.sample_fault (s : State) (inp : Input) : (s.sample inp).fault = s.fault := by
  unfold State.sample State.dropInput; split <;> rfl

@[simp] theorem State.sample_rpl (s : State) (inp : Input) : (s.sample inp).rpl = s.rpl := by
  unfold State.sample State.dropInput; split <;> rfl

@[simp] theorem State.sample_cycleCounter (s : State) (inp : Input) :
    (s.sample inp).cycleCounter = s.cycleCounter := by
  unfold State.sample State.dropInput; split <;> rfl

@[simp] theorem State.sample_paused (s : State) (inp : Input) :
    (s.sample inp).paused = (s.paused != inp.pauseEdge) := by
  unfold State.sample State.dropInput; split <;> rfl

@[simp] theorem State.sample_finished (s : State) (inp : Input) :
    (s.sample inp).finished = (s.finished || inp.quitEdge) := by
  unfold State.sample State.dropInput; split <;> rfl

/-! ## The step -/

theorem ended_eq_false (s : State) : s.ended = false ↔ s.fault = none ∧ s.finished = false ∧ s.hostError = false := by
  simp [State.ended, and_assoc]

theorem step_of_ended {s : State} (h : s.ended = true) : step s = .fault .runEnded := if_pos h

theorem step_of_not_ended {s : State} (h : s.ended = false) :
    step s = iterateSampled (s.sample s.nextInput) s.nextInput := if_neg (by simp [h])

/-- What an iteration can do (60_exceptions.md R300): sample and halt, or perform what is decoded on the sampled state,
count the step, and end the iteration. -/
theorem step_next_cases {s t : State} (h : step s = .next t) :
    s.ended = false ∧
    (((s.sample s.nextInput).paused = true ∧ (s.sample s.nextInput).finished = false ∧ t = s.sample s.nextInput) ∨
     (¬ ((s.sample s.nextInput).paused = true ∧ (s.sample s.nextInput).finished = false) ∧
      ∃ u, perform (decode (s.sample s.nextInput).fetchBytes) (s.sample s.nextInput) = .next u ∧
        t = u.countCycle.afterStep s.nextInput)) := by
  cases he : s.ended with
  | true => rw [step_of_ended he] at h; cases h
  | false =>
    refine ⟨rfl, ?_⟩
    rw [step_of_not_ended he, iterateSampled] at h
    split at h
    · rename_i hp
      refine .inl ⟨hp.1, by simpa using hp.2, ?_⟩
      cases h
      rfl
    · rename_i hp
      refine .inr ⟨by simpa using hp, ?_⟩
      obtain ⟨u, hu⟩ := perform_total (decode (s.sample s.nextInput).fetchBytes) (s.sample s.nextInput)
      rw [coreStep, hu] at h
      cases h
      exact ⟨u, hu, rfl⟩

/-! ## The rest of an iteration -/

/-- Nothing but the fields that the end of an iteration writes differs. -/
def OnlyTickFields (s t : State) : Prop :=
  ∃ (d : Bool) (dt st : Byte) (on he : Bool) (ev : List Event),
    t = { s with dirty := d, delayTimer := dt, soundTimer := st, audioOn := on, hostError := he, events := ev }

theorem OnlyTickFields.refl (s : State) : OnlyTickFields s s := ⟨_, _, _, _, _, _, rfl⟩

theorem OnlyTickFields.trans {s t u : State} (h : OnlyTickFields s t) (k : OnlyTickFields t u) : OnlyTickFields s u := by
  obtain ⟨_, _, _, _, _, _, rfl⟩ := h
  obtain ⟨_, _, _, _, _, _, rfl⟩ := k
  exact ⟨_, _, _, _, _, _, rfl⟩

theorem OnlyTickFields.ite {s a b : State} {c : Prop} [Decidable c] (h : OnlyTickFields s a) (k : OnlyTickFields s b) :
    OnlyTickFields s (if c then a else b) := by
  split
  · exact h
  · exact k

theorem State.drawFrame_only (s : State) : OnlyTickFields s s.drawFrame :=
  .ite ⟨_, _, _, _, _, _, rfl⟩ (.refl s)

/-- A tick changes `dirty`, the timers, the tone level, the host error and the events only (60_exceptions.md R302,
R306). -/
theorem State.tick_only (s : State) (f : Option HostCall) : OnlyTickFields s (s.tick f) :=
  .ite ⟨_, _, _, _, _, _, rfl⟩
    (.ite (s.drawFrame_only.trans ⟨_, _, _, _, _, _, rfl⟩) (s.drawFrame_only.trans ⟨_, _, _, _, _, _, rfl⟩))

/-- The host's report is the storage warning where it cannot write and the step asked it to (60_exceptions.md R285). -/
theorem State.reportStorage_of_failed {s : State} {inp : Input} (hf : inp.storageFails = true)
    (hp : ∃ bytes, Event.persist bytes ∈ s.events) : s.reportStorage inp = s.emit (.warn .storageWriteFailed) := by
  obtain ⟨bytes, hb⟩ := hp
  exact if_pos ⟨hf, List.any_eq_true.2 ⟨_, hb, rfl⟩⟩

/-- Else there is none. -/
theorem State.reportStorage_of_not {s : State} {inp : Input}
    (h : ¬ (inp.storageFails = true ∧ ∃ bytes, Event.persist bytes ∈ s.events)) : s.reportStorage inp = s := by
  refine if_neg fun ⟨hf, ha⟩ => h ⟨hf, ?_⟩
  obtain ⟨e, he, hm⟩ := List.any_eq_true.1 ha
  cases e with
  | persist bytes => exact ⟨bytes, he⟩
  | _ => exact absurd hm (by simp)

theorem State.reportStorage_only (s : State) (inp : Input) : OnlyTickFields s (s.reportStorage inp) :=
  .ite ⟨_, _, _, _, _, _, rfl⟩ (.refl s)

/-- The end of an iteration changes no more than a tick does. -/
theorem State.afterStep_only (s : State) (inp : Input) : OnlyTickFields s (s.afterStep inp) :=
  .ite (.refl s)
    (.ite (s.reportStorage_only inp)
      (.ite ((s.reportStorage_only inp).trans (State.tick_only _ _)) (s.reportStorage_only inp)))

/-- Counting a step changes nothing but the counter. -/
theorem State.countCycle_eq (s : State) : s.countCycle = { s with cycleCounter := s.countCycle.cycleCounter } := by
  unfold State.countCycle; split <;> rfl

end Sys2Proof.Machine
end

