-- ==== Sys2Proof/Laws/Frames.lean ====
section
/-!
SUPPORT. What each instruction can change, said once: its shape is the record update it performs, with the new values left
open. A rule over all instructions is then one case split over shapes.
-/

namespace Sys2Proof.Machine

/-- Only the program counter. -/
def ChangesPc (s t : State) : Prop := ∃ pc, t = { s with pc := pc }

/-- Only registers and the program counter. -/
def ChangesRegs (s t : State) : Prop := ∃ v pc, t = { s with v := v, pc := pc }

/-- Only registers, the program counter and the free-value counter. -/
def ChangesRegsFresh (s t : State) : Prop := ∃ v pc n, t = { s with v := v, pc := pc, fresh := n }

/-- Only the planes, `dirty` and the program counter. -/
def ChangesPlanes (s t : State) : Prop :=
  ∃ p0 p1 d pc, t = { s with plane0 := p0, plane1 := p1, dirty := d, pc := pc }

/-- Only the index register and the program counter. -/
def ChangesIdx (s t : State) : Prop := ∃ w pc, t = { s with idx := w, pc := pc }

/-- Only bytes stored from `idx` on and the program counter. -/
def ChangesRam (s t : State) : Prop := ∃ bs pc, t = { s with ram := s.ram.writeBlock s.params s.idx bs, pc := pc }

/-- The shape of each instruction's effect. -/
def Shape (s t : State) : Instr → Prop
  | .scd _ | .scu _ | .cls | .scr | .scl => ChangesPlanes s t
  | .ret => (s.sp = 0 ∧ t = { s with fault := some (.underflow s.pc) }) ∨ ∃ pc k, t = { s with pc := pc, sp := k }
  | .exit => ∃ pc, t = { s with finished := true, pc := pc }
  | .low | .high => ∃ b pc, t = { s with hires := b, pc := pc }
  | .jp _ | .jpV0 _ => ChangesPc s t
  | .call _ => (s.sp = 15 ∧ t = { s with fault := some (.overflow s.pc) }) ∨
      ∃ (pc : Word) (k : Fin 16) (w : Word), k ≠ 0 ∧ t = { s with pc := pc, sp := k, stack := s.stack.set k.val w }
  | .seImm _ _ | .sneImm _ _ | .seReg _ _ | .sneReg _ _ | .skp _ | .sknp _ => ChangesPc s t
  | .save _ _ | .ldB _ => ChangesRam s t
  | .load _ _ | .ldImm _ _ | .addImm _ _ | .ldReg _ _ | .orReg _ _ | .andReg _ _ | .xorReg _ _ | .addReg _ _
  | .sub _ _ | .shr _ _ | .subn _ _ | .shl _ _ | .ldVxDt _ | .ldVxR _ => ChangesRegs s t
  | .rnd _ _ | .ldVxK _ => ChangesRegsFresh s t
  | .drw _ _ _ => ∃ v p0 p1 d pc, t = { s with v := v, plane0 := p0, plane1 := p1, dirty := d, pc := pc }
  | .ldI _ | .ldlI _ | .addI _ | .ldF _ | .ldHf _ => ChangesIdx s t
  | .audio => ∃ pat ev pc, t = { s with audioPattern := pat, events := ev, pc := pc }
  | .plane _ => ∃ m ev pc, t = { s with planeMask := m, events := ev, pc := pc }
  | .ldDtVx _ => ∃ b pc, t = { s with delayTimer := b, pc := pc }
  | .ldStVx _ => ∃ b pc, t = { s with soundTimer := b, pc := pc }
  | .pitch _ => ∃ b ev pc, t = { s with pitch := b, events := ev, pc := pc }
  | .storeRegs _ => ∃ bs w pc, t = { s with ram := s.ram.writeBlock s.params s.idx bs, idx := w, pc := pc }
  | .loadRegs _ => ∃ v w pc, t = { s with v := v, idx := w, pc := pc }
  | .ldRVx _ => ∃ r ev pc, t = { s with rpl := r, events := ev, pc := pc } ∧ (s.mode = .chip8 → r = s.rpl)

/-! ## The conditional meanings -/

theorem execRet_shape {s t : State} (h : execRet s = .next t) : Shape s t .ret := by
  unfold execRet at h
  split at h <;> cases h
  · exact .inl ⟨Fin.ext (by assumption), rfl⟩
  · exact .inr ⟨_, _, rfl⟩

theorem execCall_shape {s t : State} (nnn : Imm12) (h : execCall nnn s = .next t) : Shape s t (.call nnn) := by
  unfold execCall at h
  split at h <;> cases h
  · exact .inl ⟨Fin.ext (by assumption), rfl⟩
  · refine .inr ⟨_, _, _, ?_, rfl⟩
    intro e
    have := congrArg Fin.val e
    have := s.sp.isLt
    simp only [Fin.val_ofNat, Fin.val_zero] at *
    omega

theorem execJpV0_shape {s t : State} (nnn : Imm12) (h : execJpV0 nnn s = .next t) : ChangesPc s t := by
  unfold execJpV0 at h
  split at h <;> cases h <;> exact ⟨_, rfl⟩

theorem execPlane_shape {s t : State} (x : Nibble) (h : execPlane x s = .next t) : Shape s t (.plane x) := by
  unfold execPlane at h
  split at h <;> cases h <;> exact ⟨_, _, _, rfl⟩

theorem execDrw_shape {s t : State} (x y : Reg) (n : Nibble) (h : execDrw x y n s = .next t) : Shape s t (.drw x y n) := by
  unfold execDrw at h
  split at h <;> cases h <;> exact ⟨_, _, _, _, _, rfl⟩

theorem execLdVxK_shape {s t : State} (x : Reg) (h : execLdVxK x s = .next t) : ChangesRegsFresh s t := by
  unfold execLdVxK at h
  split at h <;> cases h <;> exact ⟨_, _, _, rfl⟩

theorem execLdRVx_shape {s t : State} (x : Reg) (h : execLdRVx x s = .next t) : Shape s t (.ldRVx x) := by
  unfold execLdRVx at h
  split at h <;> cases h
  · exact ⟨_, _, _, rfl, fun _ => rfl⟩
  · rename_i last hl
    refine ⟨_, _, _, rfl, fun hm => ?_⟩
    rw [hm, flagReach_chip8] at hl
    cases hl

theorem execLdVxR_shape {s t : State} (x : Reg) (h : execLdVxR x s = .next t) : ChangesRegs s t := by
  unfold execLdVxR at h
  split at h <;> cases h <;> exact ⟨_, _, rfl⟩

/-! ## The shared operations -/

theorem State.skipIf_shape (s : State) (c : Bool) : ChangesPc s (s.skipIf c) := ⟨_, s.skipIf_eq_jump c⟩

theorem State.setLogic_shape (s : State) (x : Reg) (b : Byte) : ChangesRegs s (s.setLogic x b).advance := by
  rw [State.setLogic_eq]; exact ⟨_, _, rfl⟩

theorem State.loadRegsFrom_shape (s : State) (a : Word) (rs : List Reg) :
    ChangesRegs s (s.loadRegsFrom a rs).advance := by
  rw [State.loadRegsFrom_eq]; exact ⟨_, _, rfl⟩

/-- Every instruction has its shape. -/
theorem exec_shape {i : Instr} {s t : State} (h : exec i s = .next t) : Shape s t i := by
  cases i with
  | ret => exact execRet_shape h
  | call nnn => exact execCall_shape nnn h
  | jpV0 nnn => exact execJpV0_shape nnn h
  | plane x => exact execPlane_shape x h
  | drw x y n => exact execDrw_shape x y n h
  | ldVxK x => exact execLdVxK_shape x h
  | ldRVx x => exact execLdRVx_shape x h
  | ldVxR x => exact execLdVxR_shape x h
  | seImm x nn => cases h; exact s.skipIf_shape _
  | sneImm x nn => cases h; exact s.skipIf_shape _
  | seReg x y => cases h; exact s.skipIf_shape _
  | sneReg x y => cases h; exact s.skipIf_shape _
  | skp x => cases h; exact s.skipIf_shape _
  | sknp x => cases h; exact s.skipIf_shape _
  | orReg x y => cases h; exact s.setLogic_shape _ _
  | andReg x y => cases h; exact s.setLogic_shape _ _
  | xorReg x y => cases h; exact s.setLogic_shape _ _
  | load x y => cases h; exact s.loadRegsFrom_shape _ _
  | loadRegs x =>
    cases h
    rw [State.memInc_eq, State.loadRegList, State.loadRegsFrom_eq]
    exact ⟨_, _, _, rfl⟩
  | storeRegs x => cases h; rw [State.memInc_eq]; exact ⟨_, _, _, rfl⟩
  | scd n => cases h; exact ⟨_, _, _, _, rfl⟩
  | scu n => cases h; exact ⟨_, _, _, _, rfl⟩
  | cls => cases h; exact ⟨_, _, _, _, rfl⟩
  | scr => cases h; exact ⟨_, _, _, _, rfl⟩
  | scl => cases h; exact ⟨_, _, _, _, rfl⟩
  | exit => cases h; exact ⟨_, rfl⟩
  | low => cases h; exact ⟨_, _, rfl⟩
  | high => cases h; exact ⟨_, _, rfl⟩
  | jp nnn => cases h; exact ⟨_, rfl⟩
  | save x y => cases h; exact ⟨_, _, rfl⟩
  | ldB x => cases h; exact ⟨_, _, rfl⟩
  | ldImm x nn => cases h; exact ⟨_, _, rfl⟩
  | addImm x nn => cases h; exact ⟨_, _, rfl⟩
  | ldReg x y => cases h; exact ⟨_, _, rfl⟩
  | addReg x y => cases h; exact ⟨_, _, rfl⟩
  | sub x y => cases h; exact ⟨_, _, rfl⟩
  | shr x y => cases h; exact ⟨_, _, rfl⟩
  | subn x y => cases h; exact ⟨_, _, rfl⟩
  | shl x y => cases h; exact ⟨_, _, rfl⟩
  | ldVxDt x => cases h; exact ⟨_, _, rfl⟩
  | rnd x nn => cases h; exact ⟨_, _, _, rfl⟩
  | ldI nnn => cases h; exact ⟨_, _, rfl⟩
  | ldlI w => cases h; exact ⟨_, _, rfl⟩
  | addI x => cases h; exact ⟨_, _, rfl⟩
  | ldF x => cases h; exact ⟨_, _, rfl⟩
  | ldHf x => cases h; exact ⟨_, _, rfl⟩
  | audio => cases h; exact ⟨_, _, _, rfl⟩
  | ldDtVx x => cases h; exact ⟨_, _, rfl⟩
  | ldStVx x => cases h; exact ⟨_, _, rfl⟩
  | pitch x => cases h; exact ⟨_, _, _, rfl⟩

end Sys2Proof.Machine
end

