-- ==== Sys2Proof/Laws/PerInstr.lean ====
section
/-!
SUPPORT. The statement made per instruction: the bytes of an instruction decode to it, whatever follows them.
-/

namespace Sys2Proof.Laws.RoundTrip

/-- The bytes of `i`, with any bytes after them, decode to `i` and leave those. -/
def Statement (i : Instr) : Prop := ∀ rest : List Byte, decode (encodeBytes i ++ rest) = .instr i rest

/-- An instruction of two bytes: its nibbles select it. -/
theorem of_nibbles {i : Instr} {a b c d : Nibble} (hw : encode i = [nibbles a b c d])
    (h : decodeNibbles a b c d = some i) : Statement i := by
  intro rest
  rw [encodeBytes, hw]
  exact decode_nibbles rest h

theorem scd (n : Nibble) : Statement (.scd n) := of_nibbles rfl rfl

theorem scu (n : Nibble) : Statement (.scu n) := of_nibbles rfl rfl

theorem cls : Statement .cls :=
  of_nibbles (a := 0x0) (b := 0x0) (c := 0xE) (d := 0x0) rfl rfl

theorem ret : Statement .ret :=
  of_nibbles (a := 0x0) (b := 0x0) (c := 0xE) (d := 0xE) rfl rfl

theorem scr : Statement .scr :=
  of_nibbles (a := 0x0) (b := 0x0) (c := 0xF) (d := 0xB) rfl rfl

theorem scl : Statement .scl :=
  of_nibbles (a := 0x0) (b := 0x0) (c := 0xF) (d := 0xC) rfl rfl

theorem exit : Statement .exit :=
  of_nibbles (a := 0x0) (b := 0x0) (c := 0xF) (d := 0xD) rfl rfl

theorem low : Statement .low :=
  of_nibbles (a := 0x0) (b := 0x0) (c := 0xF) (d := 0xE) rfl rfl

theorem high : Statement .high :=
  of_nibbles (a := 0x0) (b := 0x0) (c := 0xF) (d := 0xF) rfl rfl

theorem jp (nnn : Imm12) : Statement (.jp nnn) :=
  of_nibbles rfl (by rw [show ((.jp nnn) : Instr) = _ from congrArg _ (addrOf_thirds nnn).symm]; rfl)

theorem call (nnn : Imm12) : Statement (.call nnn) :=
  of_nibbles rfl (by rw [show ((.call nnn) : Instr) = _ from congrArg _ (addrOf_thirds nnn).symm]; rfl)

theorem seImm (x : Reg) (nn : Byte) : Statement (.seImm x nn) :=
  of_nibbles rfl (by rw [show ((.seImm x nn) : Instr) = _ from congrArg _ (immOf_halves nn).symm]; rfl)

theorem sneImm (x : Reg) (nn : Byte) : Statement (.sneImm x nn) :=
  of_nibbles rfl (by rw [show ((.sneImm x nn) : Instr) = _ from congrArg _ (immOf_halves nn).symm]; rfl)

theorem seReg (x y : Reg) : Statement (.seReg x y) := of_nibbles rfl rfl

theorem save (x y : Reg) : Statement (.save x y) := of_nibbles rfl rfl

theorem load (x y : Reg) : Statement (.load x y) := of_nibbles rfl rfl

theorem ldImm (x : Reg) (nn : Byte) : Statement (.ldImm x nn) :=
  of_nibbles rfl (by rw [show ((.ldImm x nn) : Instr) = _ from congrArg _ (immOf_halves nn).symm]; rfl)

theorem addImm (x : Reg) (nn : Byte) : Statement (.addImm x nn) :=
  of_nibbles rfl (by rw [show ((.addImm x nn) : Instr) = _ from congrArg _ (immOf_halves nn).symm]; rfl)

theorem ldReg (x y : Reg) : Statement (.ldReg x y) := of_nibbles rfl rfl

theorem orReg (x y : Reg) : Statement (.orReg x y) := of_nibbles rfl rfl

theorem andReg (x y : Reg) : Statement (.andReg x y) := of_nibbles rfl rfl

theorem xorReg (x y : Reg) : Statement (.xorReg x y) := of_nibbles rfl rfl

theorem addReg (x y : Reg) : Statement (.addReg x y) := of_nibbles rfl rfl

theorem sub (x y : Reg) : Statement (.sub x y) := of_nibbles rfl rfl

theorem shr (x y : Reg) : Statement (.shr x y) := of_nibbles rfl rfl

theorem subn (x y : Reg) : Statement (.subn x y) := of_nibbles rfl rfl

theorem shl (x y : Reg) : Statement (.shl x y) := of_nibbles rfl rfl

theorem sneReg (x y : Reg) : Statement (.sneReg x y) := of_nibbles rfl rfl

theorem ldI (nnn : Imm12) : Statement (.ldI nnn) :=
  of_nibbles rfl (by rw [show ((.ldI nnn) : Instr) = _ from congrArg _ (addrOf_thirds nnn).symm]; rfl)

theorem jpV0 (nnn : Imm12) : Statement (.jpV0 nnn) :=
  of_nibbles rfl (by rw [show ((.jpV0 nnn) : Instr) = _ from congrArg _ (addrOf_thirds nnn).symm]; rfl)

theorem rnd (x : Reg) (nn : Byte) : Statement (.rnd x nn) :=
  of_nibbles rfl (by rw [show ((.rnd x nn) : Instr) = _ from congrArg _ (immOf_halves nn).symm]; rfl)

theorem drw (x y : Reg) (n : Nibble) : Statement (.drw x y n) := of_nibbles rfl rfl

theorem skp (x : Reg) : Statement (.skp x) := of_nibbles rfl rfl

theorem sknp (x : Reg) : Statement (.sknp x) := of_nibbles rfl rfl

theorem ldlI (nnnn : Word) : Statement (.ldlI nnnn) := decode_long nnnn

theorem audio : Statement .audio :=
  of_nibbles (a := 0xF) (b := 0x0) (c := 0x0) (d := 0x2) rfl rfl

theorem plane (x : Nibble) : Statement (.plane x) := of_nibbles rfl rfl

theorem ldVxDt (x : Reg) : Statement (.ldVxDt x) := of_nibbles rfl rfl

theorem ldVxK (x : Reg) : Statement (.ldVxK x) := of_nibbles rfl rfl

theorem ldDtVx (x : Reg) : Statement (.ldDtVx x) := of_nibbles rfl rfl

theorem ldStVx (x : Reg) : Statement (.ldStVx x) := of_nibbles rfl rfl

theorem addI (x : Reg) : Statement (.addI x) := of_nibbles rfl rfl

theorem ldF (x : Reg) : Statement (.ldF x) := of_nibbles rfl rfl

theorem ldHf (x : Reg) : Statement (.ldHf x) := of_nibbles rfl rfl

theorem ldB (x : Reg) : Statement (.ldB x) := of_nibbles rfl rfl

theorem pitch (x : Reg) : Statement (.pitch x) := of_nibbles rfl rfl

theorem storeRegs (x : Reg) : Statement (.storeRegs x) := of_nibbles rfl rfl

theorem loadRegs (x : Reg) : Statement (.loadRegs x) := of_nibbles rfl rfl

theorem ldRVx (x : Reg) : Statement (.ldRVx x) := of_nibbles rfl rfl

theorem ldVxR (x : Reg) : Statement (.ldVxR x) := of_nibbles rfl rfl

end Sys2Proof.Laws.RoundTrip
end

