-- ==== Sys2Proof/Tests/Slice0.lean ====
section
/-!
SUPPORT. Tests. Words are written out from the encodings of 30_encoding.md R94, expected values are taken from
95_test_vectors.md (the vector's name stands in each docstring) or worked out by hand from the rule named. At the end,
one witness for each statement with hypotheses.
-/

namespace Sys2Proof.Tests

open Sys2Proof.Machine Sys2Proof.Claims

/-! ## Well-formedness -/

/-- PLANE with a reserved operand is not well formed, with the greatest legal one it is (30_encoding.md R102). -/
theorem test_wellFormed_plane :
    ¬ (Instr.plane 4).WellFormed ∧ ¬ (Instr.plane 15).WellFormed ∧ (Instr.plane 3).WellFormed := by decide

/-! ## Decoding -/

/-- The instruction two bytes decode to. -/
def instrOf (hi lo : Byte) : Option Instr :=
  match decode [hi, lo, 0, 0] with
  | .instr i _ => some i
  | .unknownOpcode _ _ => none
  | .truncated => none

theorem test_decode_display :
    instrOf 0x00 0xC3 = some (.scd 3) ∧ instrOf 0x00 0xDF = some (.scu 15) ∧ instrOf 0x00 0xE0 = some .cls ∧
    instrOf 0x00 0xFB = some .scr ∧ instrOf 0x00 0xFC = some .scl ∧ instrOf 0x00 0xFE = some .low ∧
    instrOf 0x00 0xFF = some .high ∧ instrOf 0xF3 0x01 = some (.plane 3) ∧ instrOf 0xF4 0x01 = some (.plane 4) := by
  decide

theorem test_decode_control :
    instrOf 0x00 0xEE = some .ret ∧ instrOf 0x00 0xFD = some .exit ∧ instrOf 0x1A 0xBC = some (.jp 0xABC) ∧
    instrOf 0x22 0x10 = some (.call 0x210) ∧ instrOf 0xB2 0x06 = some (.jpV0 0x206) ∧
    instrOf 0x33 0x10 = some (.seImm 3 0x10) ∧ instrOf 0x4F 0x80 = some (.sneImm 15 0x80) ∧
    instrOf 0x51 0x20 = some (.seReg 1 2) ∧ instrOf 0x9A 0xB0 = some (.sneReg 10 11) := by decide

theorem test_decode_alu :
    instrOf 0x6A 0xFF = some (.ldImm 10 0xFF) ∧ instrOf 0x70 0x01 = some (.addImm 0 1) ∧
    instrOf 0x82 0x10 = some (.ldReg 2 1) ∧ instrOf 0x80 0x11 = some (.orReg 0 1) ∧
    instrOf 0x83 0x42 = some (.andReg 3 4) ∧ instrOf 0x84 0x43 = some (.xorReg 4 4) ∧
    instrOf 0x8A 0xB4 = some (.addReg 10 11) ∧ instrOf 0x81 0x25 = some (.sub 1 2) ∧
    instrOf 0x80 0x16 = some (.shr 0 1) ∧ instrOf 0x8F 0x17 = some (.subn 15 1) ∧
    instrOf 0x80 0x1E = some (.shl 0 1) ∧ instrOf 0xC3 0x0F = some (.rnd 3 0x0F) := by decide

theorem test_decode_sprite_keypad :
    instrOf 0xD0 0x15 = some (.drw 0 1 5) ∧ instrOf 0xDF 0xE0 = some (.drw 15 14 0) ∧
    instrOf 0xE2 0x9E = some (.skp 2) ∧ instrOf 0xE2 0xA1 = some (.sknp 2) ∧ instrOf 0xF3 0x0A = some (.ldVxK 3) := by
  decide

theorem test_decode_memory :
    instrOf 0xAF 0xFF = some (.ldI 0xFFF) ∧ decode [0xF0, 0x00, 0xAB, 0xCD] = .instr (.ldlI 0xABCD) [] ∧
    instrOf 0xF1 0x1E = some (.addI 1) ∧ instrOf 0xF0 0x29 = some (.ldF 0) ∧ instrOf 0xF4 0x30 = some (.ldHf 4) ∧
    instrOf 0xF0 0x33 = some (.ldB 0) ∧ instrOf 0xF2 0x55 = some (.storeRegs 2) ∧ instrOf 0xF2 0x65 = some (.loadRegs 2) ∧
    instrOf 0x52 0x12 = some (.save 2 1) ∧ instrOf 0x52 0x13 = some (.load 2 1) := by decide

theorem test_decode_timers_audio_flags :
    instrOf 0xF3 0x07 = some (.ldVxDt 3) ∧ instrOf 0xF0 0x15 = some (.ldDtVx 0) ∧ instrOf 0xF1 0x18 = some (.ldStVx 1) ∧
    instrOf 0xF0 0x02 = some .audio ∧ instrOf 0xF2 0x3A = some (.pitch 2) ∧ instrOf 0xF9 0x75 = some (.ldRVx 9) ∧
    instrOf 0xF9 0x85 = some (.ldVxR 9) := by decide

/-- CF16, CF17: the words that match no row. -/
theorem test_decode_unknown :
    instrOf 0x01 0x23 = none ∧ instrOf 0x51 0x21 = none ∧ instrOf 0x81 0x28 = none ∧ instrOf 0x91 0x21 = none ∧
    instrOf 0xE1 0x00 = none ∧ instrOf 0xF1 0x00 = none ∧ instrOf 0xF1 0x02 = none ∧ instrOf 0xFF 0x99 = none ∧
    instrOf 0x00 0x00 = none := by decide

/-- The bit numbering of spec/opcode_table.json: the long load's literal is bits 31..16. -/
theorem test_decodeTableWord : decodeTableWord 16 0x8AB4 = some (.addReg 10 11) ∧
    decodeTableWord 32 0x1234F000 = some (.ldlI 0x1234) ∧ decodeTableWord 16 0xF000 = some (.ldlI 0) := by decide

/-! ## One step on a small state -/

/-- The reset state of a mode, with registers, as (number, value), set. -/
def start (m : Mode) (regs : List (Reg × Byte)) : State :=
  regs.foldl (fun s r => s.setReg r.1 r.2) (State.resetWith defaultParams m (Vector.replicate 16 0))

/-- The same with `idx` set and bytes placed there. -/
def startAt (m : Mode) (regs : List (Reg × Byte)) (idx : Word) (bytes : List Byte) : State :=
  ((start m regs).setIdx idx).storeBytes idx bytes

/-- The state after one iteration that runs the instruction with these bytes. -/
def after (s : State) (bytes : List Byte) : Option State :=
  match step (s.placeAtFetch bytes) with
  | .next t => some t
  | .fault _ => none
  | .refused _ => none

/-- A plane with one cell set. -/
def oneCell (x : Fin 128) (y : Fin 64) : Plane := Plane.clear.xorCell x y true

/-! ### Control flow -/

/-- CF1. -/
theorem test_jp : (after (start .chip8 []) [0x1A, 0xBC]).map (fun t => (t.pc, t.cycleCounter)) = some (0x0ABC, 1) := by
  decide

/-- CF2. -/
theorem test_call : (after ((start .chip8 []).jump 0x204) [0x22, 0x10]).map (fun t => (t.pc, t.sp, t.stack[1])) =
    some (0x0210, 1, 0x0206) := by decide

/-- CF4, step 16: the overflow leaves `pc` and the cycle counter. -/
theorem test_call_overflow : (after { start .chip8 [] with sp := 15 } [0x22, 0x00]).map
    (fun t => (t.fault, t.pc, t.sp, t.cycleCounter)) = some (some (.overflow 0x0200), 0x0200, 15, 0) := by decide

/-- CF3. -/
theorem test_ret : (after { start .chip8 [] with sp := 1, stack := (Vector.replicate 16 0).set 1 0x0206 } [0x00, 0xEE]).map
    (fun t => (t.pc, t.sp, t.stack[1])) = some (0x0206, 0, 0x0206) := by decide

/-- CF5. -/
theorem test_ret_underflow : (after (start .chip8 []) [0x00, 0xEE]).map (fun t => (t.fault, t.pc, t.sp, t.cycleCounter)) =
    some (some (.underflow 0x0200), 0x0200, 0, 0) := by decide

/-- CF13. -/
theorem test_exit : (after ((start .chip8 []).jump 0x206) [0x00, 0xFD]).map (fun t => (t.finished, t.pc, t.cycleCounter)) =
    some (true, 0x0208, 1) := by decide

/-- CF6, CF7. -/
theorem test_seImm :
    (after (start .chip8 [(3, 0x10)]) [0x33, 0x10]).map (·.pc) = some 0x0204 ∧
    (after (start .chip8 [(3, 0x11)]) [0x33, 0x10]).map (·.pc) = some 0x0202 := by decide

/-- T-S6: the whole of a following long load is skipped, in CHIP8 mode too. -/
theorem test_seImm_long : (after (start .chip8 [(0, 1)]) [0x30, 0x01, 0xF0, 0x00, 0x12, 0x34]).map (·.pc) =
    some 0x0206 := by decide

/-- CF8, and the condition false. -/
theorem test_sneImm :
    (after (start .schip [(3, 0x11)]) [0x43, 0x10, 0xF0, 0x00]).map (·.pc) = some 0x0206 ∧
    (after (start .schip [(3, 0x10)]) [0x43, 0x10, 0xF0, 0x00]).map (·.pc) = some 0x0202 := by decide

/-- CF9. -/
theorem test_seReg_sneReg :
    (after (start .chip8 [(1, 7), (2, 7)]) [0x51, 0x20]).map (·.pc) = some 0x0204 ∧
    (after (start .chip8 [(1, 7), (2, 7)]) [0x91, 0x20]).map (·.pc) = some 0x0202 := by decide

/-- CF11, T-S5. -/
theorem test_jpV0 :
    (after (start .xochip [(0, 0xFF)]) [0xBF, 0xFF]).map (·.pc) = some 0x10FE ∧
    (after (start .chip8 [(0, 2)]) [0xB2, 0x06]).map (·.pc) = some 0x0208 := by decide

/-- CF12, T-S5. -/
theorem test_jpV0_schip :
    (after (start .schip [(15, 0xFF)]) [0xBF, 0xFF]).map (·.pc) = some 0x01FE ∧
    (after (start .schip [(0, 2), (2, 0x10)]) [0xB2, 0x06]).map (·.pc) = some 0x0016 := by decide

/-- CF14, CF15: `pc` wraps, inside an instruction too. -/
theorem test_pc_wraps :
    (after ((start .chip8 []).jump 0xFFFE) [0x60, 0x07]).map (fun t => (t.reg 0, t.pc)) = some (7, 0) ∧
    (after ((start .chip8 []).jump 0xFFFF) [0x60, 0x07]).map (fun t => (t.reg 0, t.pc)) = some (7, 1) := by decide

/-- CF16. -/
theorem test_unknown : (after (start .chip8 []) [0x01, 0x23]).map (fun t => (t.pc, t.cycleCounter, t.events)) =
    some (0x0202, 1, [.warn (.unknownOpcode 0x0123)]) := by decide

/-! ### Framebuffer -/

/-- FB1, FB2. -/
theorem test_scd :
    (after { start .chip8 [] with plane0 := oneCell 5 0 } [0x00, 0xC3]).map (fun t => (t.plane0, t.dirty)) =
      some (oneCell 5 3, true) ∧
    (after { start .chip8 [] with plane0 := oneCell 5 62 } [0x00, 0xC3]).map (fun t => (t.plane0, t.dirty)) =
      some (Plane.clear, true) := by decide

/-- FB3, FB4. -/
theorem test_scu :
    (after { start .chip8 [] with plane0 := oneCell 5 3 } [0x00, 0xD3]).map (·.plane0) = some (oneCell 5 0) ∧
    (after { start .chip8 [] with plane0 := oneCell 5 2 } [0x00, 0xD3]).map (·.plane0) = some Plane.clear := by decide

/-- FB5. -/
theorem test_scr : (after { start .chip8 [] with plane0 := (oneCell 0 7).xorCell 126 7 true } [0x00, 0xFB]).map (·.plane0) =
    some (oneCell 4 7) := by decide

/-- FB6. -/
theorem test_scl : (after { start .chip8 [] with plane0 := (oneCell 4 7).xorCell 2 7 true } [0x00, 0xFC]).map (·.plane0) =
    some (oneCell 0 7) := by decide

/-- FB7, FB9. -/
theorem test_cls :
    (after { start .chip8 [] with plane0 := oneCell 1 1, plane1 := oneCell 1 1, planeMask := 2 } [0x00, 0xE0]).map
      (fun t => (t.plane0, t.plane1, t.pixel 1 1)) = some (oneCell 1 1, Plane.clear, 1) ∧
    (after { start .chip8 [] with plane0 := oneCell 1 1, planeMask := 0 } [0x00, 0xE0]).map
      (fun t => (t.plane0, t.dirty)) = some (oneCell 1 1, true) := by decide

/-- FB11, and back. -/
theorem test_low_high :
    (after (start .chip8 []) [0x00, 0xFF]).map (fun t => (t.hires, t.dirty)) = some (true, false) ∧
    (after { start .chip8 [] with hires := true } [0x00, 0xFE]).map (fun t => (t.hires, t.dirty)) =
      some (false, false) := by decide

/-- FB10. -/
theorem test_plane :
    (after (start .chip8 []) [0xF3, 0x01]).map (fun t => (t.planeMask, t.events)) = some (3, []) ∧
    (after (start .chip8 []) [0xF4, 0x01]).map (fun t => (t.planeMask, t.events)) =
      some (1, [.warn (.planeRange 4)]) := by decide

/-! ### Register file and ALU -/

/-- A1, A2, A26. -/
theorem test_ldImm_addImm :
    (after (start .chip8 []) [0x6A, 0xFF]).map (fun t => t.reg 10) = some 0xFF ∧
    (after (start .chip8 [(0, 0xFF), (15, 7)]) [0x70, 0x01]).map (fun t => (t.reg 0, t.reg 15)) = some (0, 7) ∧
    (after (start .chip8 []) [0x7F, 0xFF]).map (fun t => t.reg 15) = some 0xFF := by decide

/-- A3. -/
theorem test_ldReg : (after (start .chip8 [(1, 0x3C)]) [0x82, 0x10]).map (fun t => (t.reg 2, t.reg 1)) =
    some (0x3C, 0x3C) := by decide

/-- A4, A5. -/
theorem test_or :
    (after (start .chip8 [(0, 0x0F), (1, 0xF0), (15, 0x55)]) [0x80, 0x11]).map (fun t => (t.reg 0, t.reg 15)) =
      some (0xFF, 0) ∧
    (after (start .schip [(0, 0x0F), (1, 0xF0), (15, 0x55)]) [0x80, 0x11]).map (fun t => (t.reg 0, t.reg 15)) =
      some (0xFF, 0x55) := by decide

/-- A6, A7. -/
theorem test_or_vf :
    (after (start .chip8 [(15, 0x0F), (1, 0xF0)]) [0x8F, 0x11]).map (fun t => t.reg 15) = some 0 ∧
    (after (start .xochip [(15, 0x0F), (1, 0xF0)]) [0x8F, 0x11]).map (fun t => t.reg 15) = some 0xFF := by decide

/-- 42_alu.md R174, by hand. -/
theorem test_and : (after (start .chip8 [(3, 0x3C), (4, 0x66), (15, 9)]) [0x83, 0x42]).map
    (fun t => (t.reg 3, t.reg 4, t.reg 15)) = some (0x24, 0x66, 0) := by decide

/-- A24. -/
theorem test_xor : (after (start .xochip [(4, 0xAA), (15, 9)]) [0x84, 0x43]).map (fun t => (t.reg 4, t.reg 15)) =
    some (0, 9) := by decide

/-- A8 (T-S1), A9. -/
theorem test_addReg :
    (after (start .chip8 [(10, 0xFF), (11, 2)]) [0x8A, 0xB4]).map (fun t => (t.reg 10, t.reg 15)) = some (1, 1) ∧
    (after (start .chip8 [(15, 0xFF), (1, 1)]) [0x8F, 0x14]).map (fun t => t.reg 15) = some 1 := by decide

/-- A12: VF as the second operand is read before it is written. -/
theorem test_addReg_vf_source : (after (start .chip8 [(0, 1), (15, 0xFF)]) [0x80, 0xF4]).map
    (fun t => (t.reg 0, t.reg 15)) = some (0, 1) := by decide

/-- A13, A14. -/
theorem test_sub :
    (after (start .chip8 [(1, 5), (2, 5)]) [0x81, 0x25]).map (fun t => (t.reg 1, t.reg 15)) = some (0, 1) ∧
    (after (start .chip8 [(1, 0), (2, 1)]) [0x81, 0x25]).map (fun t => (t.reg 1, t.reg 15)) = some (0xFF, 0) := by decide

/-- A10. -/
theorem test_sub_vf :
    (after (start .chip8 [(15, 5), (1, 3)]) [0x8F, 0x15]).map (fun t => t.reg 15) = some 1 ∧
    (after (start .chip8 [(15, 5), (1, 6)]) [0x8F, 0x15]).map (fun t => t.reg 15) = some 0 := by decide

/-- A15, A16. -/
theorem test_subn :
    (after (start .chip8 [(1, 1), (2, 0)]) [0x81, 0x27]).map (fun t => (t.reg 1, t.reg 15)) = some (0xFF, 0) ∧
    (after (start .chip8 [(1, 1), (2, 3)]) [0x81, 0x27]).map (fun t => (t.reg 1, t.reg 15)) = some (2, 1) := by decide

/-- A17, A18. -/
theorem test_shr :
    (after (start .xochip [(0, 0), (1, 0x81)]) [0x80, 0x16]).map (fun t => (t.reg 0, t.reg 15)) = some (0x40, 1) ∧
    (after (start .schip [(0, 3), (1, 0x81)]) [0x80, 0x16]).map (fun t => (t.reg 0, t.reg 15)) = some (1, 1) := by decide

/-- A21, A22. -/
theorem test_shr_vf :
    (after (start .schip [(15, 2)]) [0x8F, 0x06]).map (fun t => t.reg 15) = some 0 ∧
    (after (start .chip8 [(15, 3)]) [0x81, 0xF6]).map (fun t => (t.reg 1, t.reg 15)) = some (1, 1) := by decide

/-- A19, A20. -/
theorem test_shl :
    (after (start .chip8 [(0, 0), (1, 0x81)]) [0x80, 0x1E]).map (fun t => (t.reg 0, t.reg 15)) = some (2, 1) ∧
    (after (start .schip [(0, 0x40), (1, 0x81)]) [0x80, 0x1E]).map (fun t => (t.reg 0, t.reg 15)) = some (0x80, 0) := by
  decide

/-- A25: a mask of zero leaves nothing of the free byte; a fresh value is used up. -/
theorem test_rnd (t : State) (h : exec (.rnd 3 0) (start .chip8 [(3, 0xFF)]) = .next t) :
    t.reg 3 = 0 ∧ t.fresh = 1 := by
  cases h
  exact ⟨BitVec.and_zero, rfl⟩

/-! ### Sprites -/

/-- T-S4, first draw: rows of the glyph doubled in both directions. -/
theorem test_drw_lores : (after { start .schip [] with idx := 0x50 } [0xD0, 0x15]).map (fun t =>
    (t.plane0.toList.take 6, t.plane0[9], t.plane0[10], t.reg 15, t.dirty)) =
      some ([0xFF, 0xFF, 0xC3, 0xC3, 0xC3, 0xC3], 0xFF, 0, 0, true) := by decide +kernel

/-- SP10: both planes get the same bits; a collision on one of them sets VF. -/
theorem test_drw_planes : (after { startAt .schip [] 0x300 [0x80] with hires := true, planeMask := 3, plane0 := oneCell 0 0 }
    [0xD0, 0x11]).map (fun t => (t.plane0, t.plane1, t.reg 15, t.pixel 0 0)) =
      some (Plane.clear, oneCell 0 0, 1, 2) := by decide +kernel

/-- SP1, SP2: clipping and wrapping at the right edge. -/
theorem test_drw_edge :
    (after (startAt .schip [(0, 62)] 0x300 [0xFF]) [0xD0, 0x11]).map (fun t => (t.plane0[0], t.plane0[1], t.plane0[2])) =
      some (0xF#128 <<< 124, 0xF#128 <<< 124, 0) ∧
    (after (startAt .xochip [(0, 62)] 0x300 [0xFF]) [0xD0, 0x11]).map (fun t => (t.plane0[0], t.plane0[1], t.plane0[2])) =
      some ((0xF#128 <<< 124) ||| 0xFFF#128, (0xF#128 <<< 124) ||| 0xFFF#128, 0) := by decide +kernel

/-- SP7: a 16×16 sprite, clipped. -/
theorem test_drw_wide : (after { startAt .schip [(0, 120)] 0x300 (List.replicate 32 0xFF) with hires := true } [0xD0, 0x10]).map
    (fun t => (t.plane0[0], t.plane0[15], t.plane0[16], t.reg 15)) =
      some (0xFF#128 <<< 120, 0xFF#128 <<< 120, 0, 0) := by decide +kernel

/-- SP13, SP14: the display wait. -/
theorem test_drw_wait :
    (after { startAt .chip8 [(15, 9)] 0x300 [0xFF] with cycleCounter := 5 } [0xD0, 0x11]).map
      (fun t => (t.pc, t.cycleCounter, t.reg 15, t.dirty)) = some (0x0200, 6, 9, false) ∧
    (after { startAt .chip8 [(15, 9)] 0x300 [0xFF] with cycleCounter := 8 } [0xD0, 0x11]).map
      (fun t => (t.pc, t.cycleCounter, t.reg 15, t.dirty)) = some (0x0202, 9, 0, true) := by decide +kernel

/-! ### Keypad -/

/-- The snapshot in which only key `k` is down. -/
def onlyKey (k : Fin 16) : Vector Bool 16 := (Vector.replicate 16 false).set k.val true

/-- K1, K2. -/
theorem test_skp :
    (after { start .chip8 [(2, 5)] with keys := onlyKey 5 } [0xE2, 0x9E]).map (·.pc) = some 0x0204 ∧
    (after { start .chip8 [(2, 0x15)] with keys := onlyKey 5 } [0xE2, 0x9E]).map (·.pc) = some 0x0204 ∧
    (after (start .chip8 [(2, 5)]) [0xE2, 0x9E]).map (·.pc) = some 0x0202 := by decide

/-- K1, K3. -/
theorem test_sknp :
    (after { start .chip8 [(2, 5)] with keys := onlyKey 5 } [0xE2, 0xA1]).map (·.pc) = some 0x0202 ∧
    (after (start .chip8 [(2, 5)]) [0xE2, 0xA1]).map (·.pc) = some 0x0204 := by decide

/-- K4, K5, K6: a release, a held key, a press. -/
theorem test_ldVxK :
    (∃ t, exec (.ldVxK 3) { start .chip8 [] with prevKeys := onlyKey 7 } = .next t ∧ t.reg 3 = 7 ∧ t.pc = 0x0202) ∧
    (∃ t, exec (.ldVxK 3) { start .chip8 [] with prevKeys := onlyKey 7, keys := onlyKey 7 } = .next t ∧
      t.reg 3 = 0 ∧ t.pc = 0x0200) ∧
    (∃ t, exec (.ldVxK 3) { start .chip8 [] with keys := onlyKey 7 } = .next t ∧ t.reg 3 = 0 ∧ t.pc = 0x0200) :=
  ⟨⟨_, rfl, by decide, by decide⟩, ⟨_, rfl, by decide, by decide⟩, ⟨_, rfl, by decide, by decide⟩⟩

/-! ### Index register and memory -/

/-- M1, M2. -/
theorem test_ldI_ldlI :
    (after (start .chip8 []) [0xAF, 0xFF]).map (fun t => (t.idx, t.pc)) = some (0x0FFF, 0x0202) ∧
    (after (start .chip8 []) [0xF0, 0x00, 0xAB, 0xCD]).map (fun t => (t.idx, t.pc, t.cycleCounter)) =
      some (0xABCD, 0x0204, 1) := by decide

/-- M3, M4. -/
theorem test_addI :
    (after { start .chip8 [(1, 2), (15, 7)] with idx := 0x0FFF } [0xF1, 0x1E]).map (fun t => (t.idx, t.reg 15)) =
      some (0x1001, 7) ∧
    (after { start .chip8 [(1, 1)] with idx := 0xFFFF } [0xF1, 0x1E]).map (·.idx) = some 0 := by decide

/-- M5. -/
theorem test_ldF :
    (after (start .chip8 [(0, 0x1A)]) [0xF0, 0x29]).map (·.idx) = some 0x0082 ∧
    (after (start .chip8 [(0, 0x0F)]) [0xF0, 0x29]).map (·.idx) = some 0x009B := by decide

/-- M6. -/
theorem test_ldHf :
    (after (start .chip8 [(4, 3)]) [0xF4, 0x30]).map (·.idx) = some 0x00BE ∧
    (after (start .chip8 [(4, 0x0F)]) [0xF4, 0x30]).map (·.idx) = some 0x0136 := by decide

/-- 45_memory_index.md R234 under another legal HIRES_FONT_OFFSET, by hand: 0x0180 + 30. -/
theorem test_ldHf_offset :
    Params.Legal { defaultParams with hiresFontOffset := 0x0180 } ∧
    (after { start .chip8 [(4, 3)] with params := { defaultParams with hiresFontOffset := 0x0180 } } [0xF4, 0x30]).map
      (·.idx) = some 0x019E := by decide

/-- M7, M8. -/
theorem test_ldB :
    (after { start .chip8 [(0, 0xEA)] with idx := 0x300 } [0xF0, 0x33]).map (fun t => t.ram.readBlock t.params 0x300 3) =
      some [2, 3, 4] ∧
    (after { start .chip8 [(0, 0x64)] with idx := 0x300 } [0xF0, 0x33]).map (fun t => t.ram.readBlock t.params 0x300 3) =
      some [1, 0, 0] := by decide

/-- M9, M10. -/
theorem test_storeRegs :
    (after { start .chip8 [(0, 0x11), (1, 0x22), (2, 0x33)] with idx := 0x400 } [0xF2, 0x55]).map
      (fun t => (t.ram.readBlock t.params 0x400 4, t.idx)) = some ([0x11, 0x22, 0x33, 0], 0x0403) ∧
    (after { start .schip [(0, 0x11), (1, 0x22), (2, 0x33)] with idx := 0x400 } [0xF2, 0x55]).map
      (fun t => (t.ram.readBlock t.params 0x400 4, t.idx)) = some ([0x11, 0x22, 0x33, 0], 0x0400) := by decide

/-- M11, and the same in SCHIP mode (45_memory_index.md R238). -/
theorem test_loadRegs :
    (after (startAt .chip8 [(3, 9)] 0x300 [2, 3, 4, 5]) [0xF2, 0x65]).map
      (fun t => (t.reg 0, t.reg 1, t.reg 2, t.reg 3, t.idx)) = some (2, 3, 4, 9, 0x0303) ∧
    (after (startAt .schip [] 0x300 [2, 3, 4, 5]) [0xF2, 0x65]).map (·.idx) = some 0x0300 := by decide

/-- M13, M14. -/
theorem test_save :
    (after { start .chip8 [(1, 0x12), (2, 0x34)] with idx := 0x4000 } [0x52, 0x12]).map
      (fun t => (t.ram.readBlock t.params 0x4000 3, t.idx)) = some ([0x34, 0x12, 0], 0x4000) ∧
    (after { start .chip8 [(1, 0x12), (2, 0x34)] with idx := 0x4000 } [0x51, 0x22]).map
      (fun t => (t.ram.readBlock t.params 0x4000 3, t.idx)) = some ([0x12, 0x34, 0], 0x4000) := by decide

/-- M15, and the walk up (45_memory_index.md R240). -/
theorem test_load :
    (after (startAt .chip8 [] 0x4000 [0x34, 0x12]) [0x52, 0x13]).map (fun t => (t.reg 2, t.reg 1)) = some (0x34, 0x12) ∧
    (after (startAt .chip8 [] 0x4000 [0x34, 0x12]) [0x51, 0x23]).map (fun t => (t.reg 1, t.reg 2)) = some (0x34, 0x12) := by
  decide

/-- The font table and offset at reset (20_memory.md R70 to R72): the first and the last byte and the byte before them;
the legal offsets at their bounds (R71). -/
theorem test_font : State.reset.byteAt 0x4F = 0 ∧ State.reset.byteAt 0x50 = 0xF0 ∧ State.reset.byteAt 0x9F = 0x80 ∧
    State.reset.params.hiresFontOffset = 0x00A0 ∧ defaultParams.Legal ∧
    Params.Legal { defaultParams with hiresFontOffset := 0x019C } ∧
    ¬ Params.Legal { defaultParams with hiresFontOffset := 0x019D } ∧
    ¬ Params.Legal { defaultParams with hiresFontOffset := 0x009F } ∧
    ¬ Params.Legal { defaultParams with hiresFontOffset := 0x0000 } := by decide

/-! ### Timers, audio, flags -/

/-- T1, T2. -/
theorem test_delay :
    (after { start .chip8 [] with delayTimer := 0x2A } [0xF3, 0x07]).map (fun t => t.reg 3) = some 0x2A ∧
    (after (start .chip8 [(0, 0x3C)]) [0xF0, 0x15]).map (·.delayTimer) = some 0x3C := by decide

/-- T3, T4: the write leaves the tone level. -/
theorem test_ldStVx :
    (after (start .chip8 [(1, 2)]) [0xF1, 0x18]).map (fun t => (t.soundTimer, t.audioOn)) = some (2, false) ∧
    (after { start .chip8 [] with soundTimer := 5, audioOn := true } [0xF1, 0x18]).map (fun t => (t.soundTimer, t.audioOn)) =
      some (0, true) := by decide

/-- T7. -/
theorem test_audio : (after (startAt .chip8 [] 0x300 ((List.replicate 8 [0x00, 0xFF]).flatten)) [0xF0, 0x02]).map
    (fun t => (t.audioPattern.toList, t.events.length, t.pc, t.idx)) =
      some ((List.replicate 8 [0x00, 0xFF]).flatten, 1, 0x0202, 0x0300) := by decide

/-- T8. -/
theorem test_pitch : (after (start .chip8 [(2, 0x40)]) [0xF2, 0x3A]).map (fun t => (t.pitch, t.events)) =
    some (64, [.setPitch 0x40]) := by decide

/-- T8: the frequencies of the pitches 64, 112 and 16. -/
theorem test_tone_frequency : IsToneFrequency 64 4000 ∧ IsToneFrequency 112 8000 ∧ IsToneFrequency 16 2000 := by
  have h64 : (64 : Byte).toNat = 64 := rfl
  have h112 : (112 : Byte).toNat = 112 := rfl
  have h16 : (16 : Byte).toNat = 16 := rfl
  refine ⟨⟨by norm_num, ?_⟩, ⟨by norm_num, ?_⟩, ⟨by norm_num, ?_⟩⟩
  · rw [h64]
  · rw [h112]; norm_num
  · rw [h16]; norm_num

/-- ST6, ST4. -/
theorem test_ldRVx :
    (after { start .schip [(0, 0x11)] with rpl := (Vector.replicate 16 0xBB) } [0xF0, 0x75]).map
      (fun t => (t.rpl[0], t.rpl[1], t.events)) = some (0x11, 0xBB, [.persist [0x11]]) ∧
    (after (start .chip8 [(0, 0xAA)]) [0xF0, 0x75]).map (fun t => (t.rpl[0], t.events)) = some (0, []) := by decide

/-- ST3, ST5. -/
theorem test_ldVxR :
    (after { start .schip [] with rpl := Vector.replicate 16 0x17 } [0xFF, 0x85]).map (fun t => (t.reg 7, t.reg 8)) =
      some (0x17, 0) ∧
    (after { start .xochip [] with rpl := Vector.replicate 16 0x17 } [0xFF, 0x85]).map (fun t => (t.reg 8, t.reg 15)) =
      some (0x17, 0x17) := by decide

/-! ### The iteration -/

/-- An iteration's inputs with no key: pause edge, quit edge, tick due. -/
def inputOf (pause quit tick : Bool) : Input :=
  { quietInput (Vector.replicate 16 false) with pauseEdge := pause, quitEdge := quit, tickDue := tick }

/-- A state that stands before the instruction `6A FF` with one iteration's inputs given. -/
def ready (s : State) (inp : Input) : State := { s.placeAtFetch [0x6A, 0xFF] with inputs := [inp] }

/-- The state after one iteration of it. -/
def nextOf (s : State) : Option State :=
  match step s with
  | .next t => some t
  | .fault _ => none
  | .refused _ => none

/-- T3, ticks 1 to 3: the level follows the sound timer before its decrement. -/
theorem test_tick_sound :
    (nextOf { ready (start .chip8 []) (inputOf false false true) with soundTimer := 1 }).map
      (fun t => (t.audioOn, t.soundTimer)) = some (true, 0) ∧
    (nextOf { ready (start .chip8 []) (inputOf false false true) with soundTimer := 0, audioOn := true }).map
      (fun t => (t.audioOn, t.soundTimer)) = some (false, 0) := by decide

/-- T5, T6: a frame is emitted exactly if `dirty`. -/
theorem test_tick_frame :
    (nextOf { ready (start .chip8 []) (inputOf false false true) with dirty := true, delayTimer := 1 }).map
      (fun t => (t.events.length, t.dirty, t.delayTimer)) = some (1, false, 0) ∧
    (nextOf (ready (start .chip8 []) (inputOf false false true))).map (fun t => t.events.length) = some 0 := by
  decide +kernel

/-- T9, T10, T11. -/
theorem test_pause_quit :
    (nextOf { ready (start .chip8 []) (inputOf false false true) with paused := true, delayTimer := 9 }).map
      (fun t => (t.delayTimer, t.cycleCounter)) = some (9, 0) ∧
    (nextOf (ready (start .chip8 []) (inputOf true false false))).map (fun t => (t.paused, t.cycleCounter)) = some (true, 0) ∧
    (nextOf { ready (start .chip8 []) (inputOf false true true) with paused := true, delayTimer := 9 }).map
      (fun t => (t.finished, t.cycleCounter, t.reg 10, t.delayTimer)) = some (true, 1, 0xFF, 9) := by decide

/-- 10_state.md R39: the extension overrides the configuration. -/
theorem test_selectMode : selectMode .chip8 .xo8 = .xochip ∧ selectMode .xochip .sc8 = .schip ∧
    selectMode .superchip .other = .schip := by decide

/-! ## Witnesses: states and operands that meet the hypotheses of each statement that has some -/

/-- Stands before `6A FF` with a quiet input. -/
def six : State := ready (start .chip8 []) (inputOf false false false)

theorem witness_EncodeOfDecode : decode [0xF0, 0x00, 0x12, 0x34, 0x99] = .instr (.ldlI 0x1234) [0x99] ∧
    decode [0xF0, 0x02] = .instr .audio [] := by decide

theorem witness_DecoderFollowsOpcodeTable :
    decode [0x8A, 0xB4, 0, 0] = .instr (.addReg 10 11) [0, 0] ∧ Known 0x8AB4 ∧ Known 0xF000 ∧ ¬ Known 0xF102 := by
  refine ⟨by decide, ⟨.addReg 0 0, by decide⟩, ⟨.ldlI 0, by decide⟩, ?_⟩
  rintro ⟨i, h⟩
  cases i <;> revert h <;> simp only [rowOf] <;> decide

theorem witness_StepRunsDecodedInstruction :
    six.ended = false ∧ ¬ Halted six six.nextInput ∧ decode (bytesAtPc six) = .instr (.ldImm 10 0xFF) [0, 0] := by
  refine ⟨by decide, ?_, by decide⟩
  unfold Halted
  decide

/-- ExitFinishesRun: an iteration that runs EXIT. -/
theorem witness_Exit : ∃ s : State, s.ended = false ∧ ¬ Halted s s.nextInput ∧
    decode (bytesAtPc s) = .instr .exit [0, 0] := by
  refine ⟨six.storeBytes 0x200 [0x00, 0xFD], by decide, ?_, by decide⟩
  unfold Halted
  decide

/-- The states of UnknownWordIsTwoByteNoOp. -/
theorem witness_UnknownWord :
    ∃ s : State, s.ended = false ∧ ¬ Halted s s.nextInput ∧ decode (bytesAtPc s) = .unknownOpcode 0x0123 [0, 0] := by
  refine ⟨six.storeBytes 0x200 [0x01, 0x23], by decide, ?_, by decide⟩
  unfold Halted
  decide

theorem witness_Paused : ({ six with paused := true }).ended = false ∧
    Halted { six with paused := true } (State.nextInput { six with paused := true }) := by
  refine ⟨by decide, ?_⟩
  unfold Halted
  decide

/-- Paused or not, with the quit edge. -/
theorem witness_Quit (paused : Bool) :
    ∃ s : State, s.paused = paused ∧ s.ended = false ∧ s.nextInput.quitEdge = true ∧
      decode (bytesAtPc s) = .instr (.ldImm 10 0xFF) [0, 0] ∧
      ∃ t, exec (.ldImm 10 0xFF) (sampled s s.nextInput) = .next t ∧ t.fault = none := by
  refine ⟨{ ready (start .chip8 []) (inputOf false true true) with paused := paused }, rfl, ?_, ?_, ?_, _, rfl, ?_⟩ <;>
    cases paused <;> decide

/-- The three ends of a run, and a running state. -/
theorem witness_StepStops :
    ({ six with fault := some (.underflow 0x200) }).fault ≠ none ∧ ({ six with finished := true }).finished = true ∧
    ({ six with hostError := true }).hostError = true ∧
    six.fault = none ∧ six.finished = false ∧ six.hostError = false := by decide

/-- A failed write of the save file, a tick due. -/
def failingSave : Input := { inputOf false false true with storageFails := true }

/-- The report's two hypotheses, and the states and inputs of the four clauses. -/
theorem witness_TickOnly :
    (failingSave.storageFails = true ∧ ∃ bytes, Event.persist bytes ∈ (State.events { six with events := [.persist [1]] })) ∧
    ¬ ((inputOf false false true).storageFails = true ∧ ∃ bytes, Event.persist bytes ∈ six.events) ∧
    ¬ (failingSave.storageFails = true ∧ ∃ bytes, Event.persist bytes ∈ (State.events { six with events := [.setPitch 1] })) ∧
    failingSave.tickDue = true ∧ (inputOf false false false).tickDue = false ∧
    six.fault = none ∧ six.finished = false ∧ ({ six with finished := true }).finished = true ∧
    ({ six with fault := some (.overflow 0x200) }).fault ≠ none := by
  refine ⟨⟨rfl, [1], List.mem_singleton.2 rfl⟩, fun h => absurd h.1 (by decide), ?_, by decide⟩
  rintro ⟨-, bytes, h⟩
  cases List.mem_singleton.1 h

/-- ST6 with a failing host (60_exceptions.md R285, 47_storage.md R266): the flags are kept, the warning follows. -/
theorem test_storage_warning :
    (nextOf { (start .schip [(0, 0x11)]).placeAtFetch [0xF0, 0x75] with inputs := [failingSave] }).map
      (fun t => (t.rpl[0], t.events, t.pc)) =
        some (0x11, [.persist [0x11], .warn .storageWriteFailed], 0x0202) := by decide

theorem witness_HostError : ({ six with dirty := true }).dirty = true ∧ six.dirty = false ∧
    (State.tick { six with dirty := true } (some .display)).hostError = true ∧
    (six.tick (some .audio)).hostError = true := by decide

/-- R306: the audio call fails after the frame and the delay decrement, before the tone and sound parts. -/
theorem test_audio_call_fails : (nextOf { ready (start .chip8 []) { inputOf false false true with hostError := some .audio } with
    dirty := true, delayTimer := 9, soundTimer := 5 }).map
      (fun t => (t.events.length, t.delayTimer, t.soundTimer, t.audioOn, t.hostError)) = some (1, 8, 5, false, true) := by
  decide +kernel

/-- A step that counts, a step that faults, an iteration without a step. -/
theorem witness_StepCountsCycles :
    (∃ s t, step s = .next t ∧ ¬ Halted s s.nextInput ∧ t.fault = none) ∧
    (∃ s t, step s = .next t ∧ ¬ Halted s s.nextInput ∧ t.fault ≠ none) ∧
    (∃ s t, step s = .next t ∧ Halted s s.nextInput) := by
  refine ⟨⟨six, _, rfl, ?_, by decide⟩, ⟨six.storeBytes 0x200 [0x00, 0xEE], _, rfl, ?_, by decide⟩,
    ⟨{ six with paused := true }, _, rfl, ?_⟩⟩ <;> unfold Halted <;> decide

/-- A step in CHIP8 mode from a state with the invariant. -/
theorem witness_StepKeeps : ∃ s t : State, s.Inv ∧ s.mode = .chip8 ∧ step s = .next t := by
  refine ⟨{ start .chip8 [] with inputs := [inputOf false false true] }, _, ⟨by decide, ?_, by decide, trivial⟩, by decide, rfl⟩
  exact Memory.wf_nil

/-- Inv also at a recorded fault, at its boundary. -/
theorem witness_Inv_fault : State.Inv { start .chip8 [] with fault := some (.underflow 0x200) } ∧
    State.Inv { start .chip8 [] with sp := 15, fault := some (.overflow 0x200) } :=
  ⟨⟨by decide, Memory.wf_nil, by decide, rfl, rfl⟩, ⟨by decide, Memory.wf_nil, by decide, rfl, rfl⟩⟩

/-- ResetMeetsInvariant, ResetLeavesDocumentedState: the reset state, legal parameters, the bounds of the zero bytes. -/
theorem witness_Reset : State.reset = State.resetWith defaultParams .chip8 (Vector.replicate 16 0) ∧ defaultParams.Legal ∧
    ((0x004F : Word).toNat < 0x0050 ∧ (0x004F : Word).toNat < defaultParams.hiresFontOffset.toNat) ∧
    (0x00A0 ≤ (0x0104 : Word).toNat ∧ defaultParams.hiresFontOffset.toNat + 100 ≤ (0x0104 : Word).toNat) :=
  ⟨rfl, by decide⟩

/-- ROMs of the greatest length and of one byte more. -/
theorem witness_LaunchPlacesProgram :
    (List.replicate 65024 (0x12 : Byte)).length ≤ 65024 ∧ 65024 < (List.replicate 65025 (0x12 : Byte)).length := by
  rw [List.length_replicate, List.length_replicate]
  decide

theorem witness_OnlyStackFaultsFault :
    (∃ t, exec (.call 0x300) { six with sp := 15 } = .next t ∧ six.fault = none ∧ t.fault ≠ none) ∧
    (∃ t, exec .ret { six with sp := 0 } = .next t ∧ six.fault = none ∧ t.fault ≠ none) :=
  ⟨⟨_, rfl, by decide, by decide⟩, ⟨_, rfl, by decide, by decide⟩⟩

theorem witness_OnlyDocumentedWriters : ∃ t, exec (.ldImm 10 0xFF) six = .next t := ⟨_, rfl⟩

/-- An instruction that never writes VF, and two that may in one mode only. -/
theorem witness_VfKept :
    (∃ t, exec (.addI 15) six = .next t ∧ mayWriteVf six.mode (.addI 15) = false) ∧
    mayWriteVf .schip (.orReg 0 1) = false ∧ mayWriteVf .schip (.ldVxR 15) = false ∧
    mayWriteVf .chip8 (.orReg 0 1) = true ∧ mayWriteVf .xochip (.ldVxR 15) = true :=
  ⟨⟨_, rfl, by decide⟩, by decide⟩

theorem witness_Canonical : Memory.wf defaultParams [(0x200, 0x6A), (0x201, 0xFF)] ∧ Memory.wf defaultParams [] ∧
    ∀ a < 65536, Memory.read defaultParams [(0x200, 0x6A)] a = Memory.read defaultParams [(0x200, 0x6A)] a :=
  ⟨by decide, Memory.wf_nil, fun _ _ => rfl⟩

/-- Both clauses, with the register at the ends of its range. -/
theorem witness_OffsetJump : (start .schip []).mode = .schip ∧ (15 : Reg).val = (0xFFF : Imm12).toNat / 256 ∧
    (0 : Reg).val = (0x0FF : Imm12).toNat / 256 ∧ (start .xochip []).mode ≠ .schip := by decide

theorem witness_CallRet : (State.sp { six with sp := 14 }) ≠ 15 ∧ (State.sp { six with sp := 15 }) = 15 ∧
    (State.sp { six with sp := 1 }) ≠ 0 ∧ six.sp = 0 := by decide

theorem witness_Skips : (5 : Fin 16).val = ((start .chip8 [(2, 0x15)]).reg 2).toNat % 16 := by decide

theorem witness_Plane : (3 : Nibble).toNat ≤ 3 ∧ 3 < (4 : Nibble).toNat := by decide

/-- The three instructions, and each clause on VF. -/
theorem witness_Logic : (Instr.xorReg = .xorReg ∧ xor = xor) ∧ (start .chip8 []).mode = .chip8 ∧
    (start .schip []).mode ≠ .chip8 ∧ (14 : Reg) ≠ 15 := by
  refine ⟨⟨rfl, rfl⟩, by decide⟩

/-- AddSetsCarry, SubtractSetsNotBorrow, ShiftsSetShiftedOutBit: a destination other than VF, and a shift source. -/
theorem witness_Arithmetic : (14 : Reg) ≠ 15 ∧
    (0x81 : Nat) = (if (start .schip [(0, 0x81)]).mode = .schip then (start .schip [(0, 0x81)]).reg 0
      else (start .schip [(0, 0x81)]).reg 1).toNat ∧
    (0x40 : Nat) = (if (start .chip8 [(1, 0x40)]).mode = .schip then (start .chip8 [(1, 0x40)]).reg 0
      else (start .chip8 [(1, 0x40)]).reg 1).toNat := by decide

theorem witness_DrawRetries : six.mode = .chip8 ∧ (State.cycleCounter { six with cycleCounter := 3 }).toNat % 4 ≠ 0 := by
  decide

/-- A draw happens in CHIP8 mode at a multiple of 4, and always in the other modes. -/
theorem witness_DrawsNow : DrawsNow { six with cycleCounter := 4 } ∧ DrawsNow { start .schip [] with cycleCounter := 3 } :=
  ⟨fun _ => by decide, fun h => by revert h; decide⟩

/-- Two draws at the same place, one after the other. -/
theorem witness_SecondDraw : ∃ s t u w : State, DrawsNow s ∧ DrawsNow u ∧
    exec (.drw 0 1 5) s = .next t ∧ exec (.drw 0 1 5) u = .next w ∧ u.mode = s.mode ∧ u.idx = s.idx ∧ SameBytes s u ∧
    u.hires = s.hires ∧ u.planeMask = s.planeMask ∧ u.reg 0 = s.reg 0 ∧ u.reg 1 = s.reg 1 ∧
    u.plane0 = t.plane0 ∧ u.plane1 = t.plane1 := by
  have h : (State.mode (startAt .schip [] 0x50 [])) ≠ .chip8 := by decide
  obtain ⟨t, ht⟩ : ∃ t, exec (.drw 0 1 5) (startAt .schip [] 0x50 []) = .next t := ⟨_, rfl⟩
  refine ⟨startAt .schip [] 0x50 [], t, { startAt .schip [] 0x50 [] with plane0 := t.plane0, plane1 := t.plane1 }, _,
    fun e => absurd e h, fun e => absurd e h, ht, rfl, rfl, rfl, fun _ => rfl, rfl, rfl, rfl, rfl, rfl, rfl⟩

/-- A released key, and none. -/
theorem witness_KeyWait :
    (∃ k : Fin 16, (State.prevKeys { six with prevKeys := onlyKey 15 })[k.val] = true ∧ six.keys[k.val] = false) ∧
    (∀ k : Fin 16, six.prevKeys[k.val] = true → six.keys[k.val] = true) := by
  refine ⟨⟨15, by decide⟩, ?_⟩
  decide

theorem witness_LongLoad : (State.byteAt (six.storeBytes 0x200 [0xF0, 0x00, 0xAB, 0xCD]) 0x200) = 0xF0 ∧
    (State.byteAt (six.storeBytes 0x200 [0xF0, 0x00, 0xAB, 0xCD]) 0x201) = 0x00 := by decide

/-- BcdStoresThreeDigits, StoreRegistersAtIndex, SaveRangeAtIndex. -/
theorem witness_StoresWf : State.reset.ram.wf State.reset.params ∧ six.ram.wf six.params := ⟨Memory.wf_nil, by decide⟩

/-- The registers of the clauses of StoreRegistersAtIndex and LoadRegistersFromIndex. -/
theorem witness_RegisterBlocks : (2 : Reg) ≤ 2 ∧ (0 : Reg) ≤ 2 ∧ (2 : Reg) < 3 := by decide

/-- SaveRangeAtIndex, LoadRangeFromIndex: the last register of a range walked down and of one walked up, and registers
outside. -/
theorem witness_Ranges : 1 ≤ rangeSpan 2 1 ∧ (1 : Reg).val = rangeReg 2 1 1 ∧ 15 ≤ rangeSpan 0 15 ∧
    (15 : Reg).val = rangeReg 0 15 15 ∧ ((0 : Reg) < 2 ∧ (0 : Reg) < 1 ∨ (2 : Reg) < 0 ∧ (1 : Reg) < 0) ∧
    ((3 : Reg) < 2 ∧ (3 : Reg) < 1 ∨ (2 : Reg) < 3 ∧ (1 : Reg) < 3) := by decide

/-- The modes of the clauses of FlagTransfersReachModeLimit, and the reach at its bounds. -/
theorem witness_Flags : (start .chip8 []).mode = .chip8 ∧ (start .schip []).mode ≠ .chip8 ∧ lastFlag .schip 15 = 7 ∧
    lastFlag .schip 3 = 3 ∧ lastFlag .xochip 15 = 15 := by decide

theorem witness_FlagLoadReturnsSaved : ∃ s t u w : State, s.mode ≠ .chip8 ∧ exec (.ldRVx 9) s = .next t ∧
    u.mode = s.mode ∧ u.rpl = t.rpl ∧ (3 : Reg) ≤ 9 ∧ exec (.ldVxR 3) u = .next w ∧ (3 : Fin 16).val ≤ lastFlag s.mode 3 :=
  ⟨start .schip [], _, _, _, by decide, rfl, rfl, rfl, by decide, rfl, by decide⟩

end Sys2Proof.Tests
end

section
/-! Control flow (40_control_flow.md): a jump's frame, and the statements about jumps. -/

namespace Sys2Proof.Proofs

open Sys2Proof.Machine Sys2Proof.Claims

/-- Setting the program counter is within the frame `OnlyPc`, whatever the target. -/
theorem onlyPc_jump (s : State) (target : Word) : OnlyPc s (s.jump target) :=
  ⟨rfl, State.byteAt_congr (s.jump_ram target) (s.jump_params target)⟩

/-- 40_control_flow.md R127: JP is a jump to the zero-extended literal. -/
theorem exec_jp (nnn : Imm12) (s : State) : exec (.jp nnn) s = .next (s.jump (zext12 nnn)) := rfl

/-- Settles O24: JP is a jump, and the target's zero extension keeps its value. -/
theorem jumpSetsPc : Obligations.JumpSetsPc := by
  intro nnn s
  have hpc : (s.jump (zext12 nnn)).pc.toNat = nnn.toNat := by
    rw [State.jump_pc, zext12_toNat]
  exact ⟨s.jump (zext12 nnn), exec_jp nnn s, hpc, onlyPc_jump s _⟩

end Sys2Proof.Proofs
end

section
/-! Framebuffer (41_framebuffer.md): the frame of a plane operation, and the statements about CLS, PLANE and the composed
frame. -/

namespace Sys2Proof.Proofs

open Sys2Proof.Machine Sys2Proof.Claims

/-! ## Updates of the selected planes, CLS -/

/-- 41_framebuffer.md R150, R161: an instruction that updates the selected planes is within the frame `OnlyPlanes`. -/
theorem onlyPlanes_updatePlanes (s : State) (f : Plane → Plane) : OnlyPlanes s (s.updatePlanes f).advance :=
  ⟨rfl, s.updatePlanes_dirty f, (s.updatePlanes f).advance_pc,
    State.byteAt_congr (s.updatePlanes_ram f) (s.updatePlanes_params f)⟩

/-- The planes after an instruction that updates the selected ones. -/
theorem plane_advance_updatePlanes (s : State) (f : Plane → Plane) (p : Fin 2) :
    (s.updatePlanes f).advance.plane p = if s.planeMask.getLsbD p.val then f (s.plane p) else s.plane p :=
  s.plane_updatePlanes f p

theorem cellOf_clear (x y : Nat) : cellOf Plane.clear x y = false := by
  unfold cellOf
  split
  · next h =>
    rw [Plane.clear_row h]
    exact BitVec.getLsbD_zero
  · rfl

/-- 41_framebuffer.md R153: CLS clears each selected plane. -/
theorem exec_cls (s : State) : exec .cls s = .next (s.updatePlanes fun _ => Plane.clear).advance := rfl

/-- Settles O32: a selected plane becomes the clear plane, whose cells are all 0; the other stays. -/
theorem clearZeroesSelectedPlanes : Obligations.ClearZeroesSelectedPlanes := by
  intro s
  refine ⟨_, exec_cls s, onlyPlanes_updatePlanes s _, fun p x y _ _ => ?_⟩
  rw [plane_advance_updatePlanes]
  split
  · exact cellOf_clear x y
  · rfl

/-! ## PLANE -/

/-- 41_framebuffer.md R158, a mask in range. -/
theorem exec_plane_of_le {x : Nibble} (h : x.toNat ≤ 3) (s : State) :
    exec (.plane x) s = .next { s with planeMask := x.setWidth 2 }.advance := if_pos h

/-- 41_framebuffer.md R158, a mask out of range. -/
theorem exec_plane_of_gt {x : Nibble} (h : 3 < x.toNat) (s : State) :
    exec (.plane x) s = .next (s.emit (.warn (.planeRange x))).advance := if_neg (Nat.not_le.2 h)

/-- Settles O34: at most 3 the literal keeps its value in the mask's two bits; above 3 the warning is all that is
emitted. -/
theorem planeSelectsOrWarns : Obligations.PlaneSelectsOrWarns := by
  intro x s
  constructor
  · intro h
    have hmask : (x.setWidth 2).toNat = x.toNat := by
      rw [BitVec.toNat_setWidth, Nat.mod_eq_of_lt (Nat.lt_succ_of_le h)]
    exact ⟨_, exec_plane_of_le h s, hmask, rfl, State.byteAt_congr rfl rfl⟩
  · exact fun h => exec_plane_of_gt h s

/-! ## The composed frame -/

/-- The pixel whose row and column are the quotient and the remainder of a row-major index. -/
theorem pixel_modNat_divNat (s : State) {x : Fin 128} {y : Fin 64} {k : Fin (64 * 128)}
    (hk : k.val = y.val * 128 + x.val) : s.pixel k.modNat k.divNat = s.pixel x y := by
  have e : k = Fin.mkDivMod y x := Fin.ext (by rw [hk, Fin.coe_mkDivMod, Nat.mul_comm])
  rw [e, Fin.modNat_mkDivMod, Fin.divNat_mkDivMod]

/-- The frame by pixel index: at index k the cell of row k / 128 and column k % 128. -/
theorem composite_eq_ofFn (s : State) :
    s.composite = List.ofFn fun k : Fin (64 * 128) => s.pixel k.modNat k.divNat := by
  simp_rw [List.ofFn_mul, State.composite, List.flatMap_def, List.ofFn_eq_map]
  refine congrArg List.flatten (List.map_congr_left fun y _ => List.map_congr_left fun x _ => ?_)
  exact (pixel_modNat_divNat s rfl).symm

theorem length_composite (s : State) : s.composite.length = 8192 := by
  rw [composite_eq_ofFn, List.length_ofFn]

/-- 41_framebuffer.md R160: row-major, the pixel of cell (x, y) stands at index y*128 + x. -/
theorem composite_getElem? (s : State) (x : Fin 128) (y : Fin 64) :
    s.composite[y.val * 128 + x.val]? = some (s.pixel x y) := by
  have hk : y.val * 128 + x.val < 64 * 128 := by omega
  rw [composite_eq_ofFn, List.getElem?_eq_getElem (by rwa [List.length_ofFn]), List.getElem_ofFn]
  exact congrArg some (pixel_modNat_divNat s rfl)

/-- A pixel's two bits: plane 1 above plane 0. -/
theorem pixel_toNat (s : State) (x : Fin 128) (y : Fin 64) :
    (s.pixel x y).toNat = 2 * (cellOf s.plane1 x y).toNat + (cellOf s.plane0 x y).toNat := by
  rw [cellOf, cellOf, dif_pos y.isLt, dif_pos y.isLt]
  show (BitVec.ofBool (s.plane1.cell x y) ++ BitVec.ofBool (s.plane0.cell x y)).toNat =
    2 * (s.plane1.cell x y).toNat + (s.plane0.cell x y).toNat
  cases s.plane1.cell x y <;> cases s.plane0.cell x y <;> rfl

/-- Settles O35: the frame's length, and the pixel at each row-major index with its two bits. -/
theorem frameComposesPlanes : Obligations.FrameComposesPlanes := by
  intro s
  refine ⟨length_composite s, fun x y hx hy => ?_⟩
  exact ⟨_, composite_getElem? s ⟨x, hx⟩ ⟨y, hy⟩, pixel_toNat s ⟨x, hx⟩ ⟨y, hy⟩⟩

end Sys2Proof.Proofs
end

section
/-! Register file and ALU (42_alu.md): the frames and values of the three register writes, the arithmetic of the results
and flags, and the statements about the ALU instructions. -/

namespace Sys2Proof.Proofs

open Sys2Proof.Machine Sys2Proof.Claims

/-! ## The register writes -/

section RegisterWrites

variable (s : State) (x : Reg) (b : Byte)

theorem reg_advance (r : Reg) : s.advance.reg r = s.reg r := rfl

/-- A step that leaves the registers outside `ws`, writes no other field and advances is within the frame `OnlyRegs`. -/
theorem onlyRegs_advance {t : State} {ws : List Reg} (h : t = { s with v := t.v })
    (hkept : ∀ r, r ∉ ws → t.reg r = s.reg r) : OnlyRegs s t.advance ws := by
  have hpc : t.pc = s.pc := by rw [h]
  have hram : t.ram = s.ram := by rw [h]
  have hparams : t.params = s.params := by rw [h]
  refine ⟨?_, hkept, congrArg (· + 2) hpc, State.byteAt_congr hram hparams⟩
  rw [h]
  rfl

/-- 42_alu.md R170, R171: an instruction with one result writes its destination only. -/
theorem onlyRegs_setReg : OnlyRegs s (s.setReg x b).advance [x] :=
  onlyRegs_advance s rfl fun _ hr => s.reg_setReg_other b (List.ne_of_not_mem_cons hr)

/-- An instruction with a flag writes its destination and VF only. -/
theorem onlyRegs_setWithFlag (f : Bool) : OnlyRegs s (s.setWithFlag x b f).advance [x, 15] := by
  refine onlyRegs_advance s (s.setWithFlag_eq x b f) fun r hr => ?_
  simp only [List.mem_cons, List.not_mem_nil, or_false, not_or] at hr
  obtain ⟨hx, hvf⟩ := hr
  exact s.reg_setWithFlag_other b f hx hvf

/-- 42_alu.md R173 to R175: in CHIP8 mode the write of a result and of a clear flag, else of the result alone. -/
theorem setLogic_eq_ite :
    s.setLogic x b = if s.mode = .chip8 then s.setWithFlag x b false else s.setReg x b := by
  simp only [State.setLogic, qVfReset_eq_true]
  rfl

/-- A logic instruction writes its destination only, and VF as well in CHIP8 mode. -/
theorem onlyRegs_setLogic :
    OnlyRegs s (s.setLogic x b).advance (if s.mode = .chip8 then [x, 15] else [x]) := by
  rw [setLogic_eq_ite]
  split
  · exact onlyRegs_setWithFlag s x b false
  · exact onlyRegs_setReg s x b

/-- 42_alu.md R181: the reset of VF comes last. -/
theorem reg_setLogic_vf (h : s.mode = .chip8) : (s.setLogic x b).reg vf = 0 := by
  rw [setLogic_eq_ite, if_pos h, State.reg_setWithFlag_vf]
  rfl

/-- The destination keeps the result unless the reset of VF overwrites it. -/
theorem reg_setLogic_dest (h : x ≠ vf ∨ s.mode ≠ .chip8) : (s.setLogic x b).reg x = b := by
  rw [setLogic_eq_ite]
  split
  · next hm => exact s.reg_setWithFlag_dest b false (h.resolve_right (not_not_intro hm))
  · exact s.reg_setReg_same x b

end RegisterWrites

/-! ## The instructions as register writes -/

section Instructions

variable (s : State) (x y : Reg)

/-- 42_alu.md R170. -/
theorem exec_ldImm (nn : Byte) : exec (.ldImm x nn) s = .next (s.setReg x nn).advance := rfl

/-- 42_alu.md R171. -/
theorem exec_addImm (nn : Byte) : exec (.addImm x nn) s = .next (s.setReg x (s.reg x + nn)).advance := rfl

/-- 42_alu.md R173 to R175: each logic instruction writes an operation on bytes that works bit by bit. -/
theorem exec_logic {i : Reg → Reg → Instr} {f : Bool → Bool → Bool}
    (h : i = .orReg ∧ f = or ∨ i = .andReg ∧ f = and ∨ i = .xorReg ∧ f = xor) :
    ∃ op : Byte → Byte → Byte,
      (∀ x y s, exec (i x y) s = .next (s.setLogic x (op (s.reg x) (s.reg y))).advance) ∧
      ∀ a b k, (op a b).getLsbD k = f (a.getLsbD k) (b.getLsbD k) := by
  obtain ⟨rfl, rfl⟩ | ⟨rfl, rfl⟩ | ⟨rfl, rfl⟩ := h
  · exact ⟨(· ||| ·), fun _ _ _ => rfl, fun _ _ _ => BitVec.getLsbD_or⟩
  · exact ⟨(· &&& ·), fun _ _ _ => rfl, fun _ _ _ => BitVec.getLsbD_and⟩
  · exact ⟨(· ^^^ ·), fun _ _ _ => rfl, fun _ _ _ => BitVec.getLsbD_xor⟩

/-- 42_alu.md R176. -/
theorem exec_addReg : exec (.addReg x y) s =
    .next (s.setWithFlag x (s.reg x + s.reg y) (carry (s.reg x) (s.reg y))).advance := rfl

/-- 42_alu.md R177. -/
theorem exec_sub : exec (.sub x y) s =
    .next (s.setWithFlag x (s.reg x - s.reg y) (notBorrow (s.reg x) (s.reg y))).advance := rfl

/-- 42_alu.md R179. -/
theorem exec_subn : exec (.subn x y) s =
    .next (s.setWithFlag x (s.reg y - s.reg x) (notBorrow (s.reg y) (s.reg x))).advance := rfl

/-- 42_alu.md R178. -/
theorem exec_shr : exec (.shr x y) s =
    .next (s.setWithFlag x (s.shiftSource x y >>> 1) (shiftedOutRight (s.shiftSource x y))).advance := rfl

/-- 42_alu.md R180. -/
theorem exec_shl : exec (.shl x y) s =
    .next (s.setWithFlag x (s.shiftSource x y <<< 1) (shiftedOutLeft (s.shiftSource x y))).advance := rfl

end Instructions

/-! ## Results and flags as numbers -/

theorem flagByte_decide (p : Prop) [Decidable p] : flagByte (decide p) = if p then 1 else 0 := by
  simp only [flagByte, decide_eq_true_eq]

theorem flagByte_carry (a b : Byte) : flagByte (carry a b) = if 255 < a.toNat + b.toNat then 1 else 0 :=
  flagByte_decide _

theorem flagByte_notBorrow (a b : Byte) : flagByte (notBorrow a b) = if b.toNat ≤ a.toNat then 1 else 0 :=
  flagByte_decide _

/-- The byte difference is the integer difference modulo 256. -/
theorem toNat_sub_byte (a b : Byte) : ((a - b).toNat : Int) = ((a.toNat : Int) - b.toNat) % 256 := by
  rw [BitVec.toNat_sub]
  omega

theorem toNat_shiftRight_one (a : Byte) : (a >>> 1).toNat = a.toNat / 2 := by
  rw [BitVec.toNat_ushiftRight, Nat.shiftRight_one]

theorem toNat_shiftLeft_one (a : Byte) : (a <<< 1).toNat = a.toNat * 2 % 256 := by
  rw [BitVec.toNat_shiftLeft, Nat.shiftLeft_eq]

theorem toNat_shiftedOutRight (a : Byte) : (shiftedOutRight a).toNat = a.toNat % 2 := by
  rw [shiftedOutRight, BitVec.getLsbD, Nat.toNat_testBit]
  omega

theorem toNat_shiftedOutLeft (a : Byte) : (shiftedOutLeft a).toNat = a.toNat / 128 := by
  have ha : a.toNat < 256 := a.isLt
  rw [shiftedOutLeft, BitVec.getLsbD, Nat.toNat_testBit]
  omega

/-- What a subtraction `a - b` leaves, whichever of VX and VY is `a` (42_alu.md R177, R179). -/
theorem setWithFlag_sub (s : State) (x : Reg) (a b : Byte) :
    (x ≠ 15 → (((s.setWithFlag x (a - b) (notBorrow a b)).advance.reg x).toNat : Int) =
      ((a.toNat : Int) - b.toNat) % 256) ∧
    (s.setWithFlag x (a - b) (notBorrow a b)).advance.reg 15 = (if b.toNat ≤ a.toNat then 1 else 0) ∧
    OnlyRegs s (s.setWithFlag x (a - b) (notBorrow a b)).advance [x, 15] := by
  refine ⟨fun hx => ?_, ?_, onlyRegs_setWithFlag s x _ _⟩
  · rw [reg_advance, State.reg_setWithFlag_dest _ _ _ hx, toNat_sub_byte]
  · rw [reg_advance, State.reg_setWithFlag_vf, flagByte_notBorrow]

/-! ## The statements -/

/-- Settles O36: each form is one register write, of the literal or of the byte sum. -/
theorem immediateFormsWriteRegister : Obligations.ImmediateFormsWriteRegister := by
  intro x nn s
  constructor
  · exact ⟨_, exec_ldImm s x nn, State.reg_setReg_same .., onlyRegs_setReg s x _⟩
  · refine ⟨_, exec_addImm s x nn, ?_, onlyRegs_setReg s x _⟩
    rw [reg_advance, State.reg_setReg_same, BitVec.toNat_add]

/-- Settles O38: the three instructions differ only in the operation; CHIP8 mode resets VF after the result. -/
theorem logicFormsWriteRegister : Obligations.LogicFormsWriteRegister := by
  intro i f h x y s
  obtain ⟨op, hexec, hbits⟩ := exec_logic h
  refine ⟨_, hexec x y s, reg_setLogic_vf s x _, fun hx k _ => ?_, onlyRegs_setLogic s x _⟩
  rw [reg_advance, reg_setLogic_dest s x _ hx, hbits]

/-- Settles O39: the byte sum, then the carry. -/
theorem addSetsCarry : Obligations.AddSetsCarry := by
  intro x y s
  refine ⟨_, exec_addReg s x y, fun hx => ?_, ?_, onlyRegs_setWithFlag s x _ _⟩
  · rw [reg_advance, State.reg_setWithFlag_dest _ _ _ hx, BitVec.toNat_add]
  · rw [reg_advance, State.reg_setWithFlag_vf, flagByte_carry]

/-- Settles O40: SUB and SUBN are one subtraction with the operands exchanged. -/
theorem subtractSetsNotBorrow : Obligations.SubtractSetsNotBorrow := by
  intro x y s
  constructor
  · exact ⟨_, exec_sub s x y, setWithFlag_sub s x (s.reg x) (s.reg y)⟩
  · exact ⟨_, exec_subn s x y, setWithFlag_sub s x (s.reg y) (s.reg x)⟩

/-- Settles O41: the source by mode, halved or doubled, then the bit shifted out. -/
theorem shiftsSetShiftedOutBit : Obligations.ShiftsSetShiftedOutBit := by
  intro x y s v hv
  rw [← State.shiftSource_eq] at hv
  subst hv
  constructor
  · refine ⟨_, exec_shr s x y, fun hx => ?_, ?_, onlyRegs_setWithFlag s x _ _⟩
    · rw [reg_advance, State.reg_setWithFlag_dest _ _ _ hx, toNat_shiftRight_one]
    · rw [reg_advance, State.reg_setWithFlag_vf, flagByte_toNat, toNat_shiftedOutRight]
  · refine ⟨_, exec_shl s x y, fun hx => ?_, ?_, onlyRegs_setWithFlag s x _ _⟩
    · rw [reg_advance, State.reg_setWithFlag_dest _ _ _ hx, toNat_shiftLeft_one]
    · rw [reg_advance, State.reg_setWithFlag_vf, flagByte_toNat, toNat_shiftedOutLeft]

end Sys2Proof.Proofs
end

section
/-! Sprites (43_sprite.md): what a performed draw does to the cells and to VF, and the statement about drawing twice. -/

namespace Sys2Proof.Proofs

open Sys2Proof.Machine Sys2Proof.Claims

/-! ## Which cells a draw toggles -/

/-- `DRW Vx, Vy, n` toggles cell (px, py) of plane `p`: the plane is selected, and a 1 bit of the sprite lies there. -/
def drwToggles (s : State) (x y : Reg) (n : Nibble) (p : Fin 2) (px : Fin 128) (py : Fin 64) : Bool :=
  s.selected p && litAt (s.drwDots x y n) px py

/-- A draw from a state with the same mode, sprite, place, resolution and mask toggles the same cells. -/
theorem drwToggles_congr {s u : State} (x y : Reg) (n : Nibble) (hmode : u.mode = s.mode) (hidx : u.idx = s.idx)
    (hbytes : SameBytes s u) (hhires : u.hires = s.hires) (hmask : u.planeMask = s.planeMask)
    (hx : u.reg x = s.reg x) (hy : u.reg y = s.reg y) : drwToggles u x y n = drwToggles s x y n := by
  have hdots := drwDots_congr x y n hmode hidx hbytes hhires hx hy
  funext p px py
  rw [drwToggles, drwToggles, hdots, State.selected, State.selected, hmask]

/-- 43_sprite.md R206, R209: a draw collides exactly if a cell it toggles was 1. -/
theorem drwHit_iff (s : State) (x y : Reg) (n : Nibble) :
    s.drwHit (s.drwDots x y n) = true ↔
      ∃ p px py, drwToggles s x y n p px py = true ∧ (s.plane p).cell px py = true := by
  have hplane (p : Fin 2) : (s.selected p && (blit (s.drwDots x y n) (s.plane p)).2) = true ↔
      ∃ px py, drwToggles s x y n p px py = true ∧ (s.plane p).cell px py = true := by
    simp only [Bool.and_eq_true, blit_hit _ _ (drwDots_nodup s x y n), drwToggles, and_assoc, exists_and_left]
  rw [Fin.exists_fin_two, ← hplane 0, ← hplane 1, ← Bool.or_eq_true]
  rfl

/-! ## A performed draw -/

/-- 43_sprite.md R200, R201: a draw that need not wait blits the dots, then writes VF. -/
theorem exec_drw_of_drawsNow {s : State} (h : DrawsNow s) (x y : Reg) (n : Nibble) :
    exec (.drw x y n) s =
      .next ((s.updatePlanes fun p => (blit (s.drwDots x y n) p).1).setReg vf
        (flagByte (s.drwHit (s.drwDots x y n)))).advance :=
  if_neg fun hw => (s.drwWaits_iff.1 hw).elim fun hchip8 hphase => hphase (h hchip8)

section PerformedDraw

variable {s t : State} {x y : Reg} {n : Nibble} (hnow : DrawsNow s) (h : exec (.drw x y n) s = .next t)
include hnow h

/-- 43_sprite.md R206: each cell after a draw. -/
theorem cell_of_exec_drw (p : Fin 2) (px : Fin 128) (py : Fin 64) :
    (t.plane p).cell px py = ((s.plane p).cell px py ^^ drwToggles s x y n p px py) := by
  rw [exec_drw_of_drawsNow hnow] at h
  cases h
  have hplane := s.plane_updatePlanes (fun q => (blit (s.drwDots x y n) q).1) p
  refine (congrArg (Plane.cell · px py) hplane).trans ?_
  cases hsel : s.planeMask.getLsbD p.val
  · simp [drwToggles, State.selected, hsel]
  · simp [drwToggles, State.selected, hsel, blit_cell _ _ (drwDots_nodup s x y n)]

/-- 43_sprite.md R209: VF after a draw. -/
theorem vf_of_exec_drw : t.reg vf = 1 ↔
    ∃ p px py, drwToggles s x y n p px py = true ∧ (s.plane p).cell px py = true := by
  rw [exec_drw_of_drawsNow hnow] at h
  cases h
  rw [reg_advance, State.reg_setReg_same, flagByte_eq_one, drwHit_iff]

end PerformedDraw

/-! ## Two draws -/

/-- A cell of a plane by its coordinates as numbers. -/
theorem cellOf_val (p : Plane) (px : Fin 128) (py : Fin 64) : cellOf p px py = p.cell px py := dif_pos py.isLt

theorem plane_congr {s t : State} (h0 : s.plane0 = t.plane0) (h1 : s.plane1 = t.plane1) (p : Fin 2) :
    s.plane p = t.plane p := by
  rw [State.plane, State.plane, h0, h1]

/-- Settles O46: both draws toggle the same cells, so the second undoes the first; a toggled cell that the second draw
finds at 1 is a cell that the first changed from 0. -/
theorem secondDrawUndoesFirst : Obligations.SecondDrawUndoesFirst := by
  intro x y n s t u w hs hu hst huw hmode hidx hbytes hhires hmask hx hy h0 h1
  have htoggles := drwToggles_congr x y n hmode hidx hbytes hhires hmask hx hy
  have hfirst := cell_of_exec_drw hs hst
  have hrestored (p : Fin 2) : w.plane p = s.plane p := by
    refine Plane.ext_cell fun px py => ?_
    rw [cell_of_exec_drw hu huw, plane_congr h0 h1, htoggles, hfirst, Bool.xor_assoc, Bool.xor_self, Bool.xor_false]
  have hset (p : Fin 2) (px : Fin 128) (py : Fin 64) :
      drwToggles s x y n p px py = true ∧ (t.plane p).cell px py = true ↔
        (s.plane p).cell px py = false ∧ (t.plane p).cell px py = true := by
    rw [hfirst]
    cases (s.plane p).cell px py <;> cases drwToggles s x y n p px py <;> decide
  refine ⟨hrestored 0, hrestored 1, ?_⟩
  rw [show (15 : Reg) = vf from rfl, vf_of_exec_drw hu huw, htoggles]
  simp only [plane_congr h0 h1, hset]
  constructor
  · rintro ⟨p, px, py, hcell⟩
    exact ⟨p, px, py, px.isLt, py.isLt, by simpa only [cellOf_val] using hcell⟩
  · rintro ⟨p, px, py, hpx, hpy, hcell⟩
    exact ⟨p, ⟨px, hpx⟩, ⟨py, hpy⟩, by simpa only [← cellOf_val] using hcell⟩

end Sys2Proof.Proofs
end

section
/-! Memory and index (45_memory_index.md): the frame of a write of `idx`, and the statement about LD I. -/

namespace Sys2Proof.Proofs

open Sys2Proof.Machine Sys2Proof.Claims

/-- Setting `idx` leaves RAM unchanged, and so does moving the program counter after it. -/
theorem sameBytes_advance_setIdx (s : State) (w : Word) : SameBytes s (s.setIdx w).advance :=
  State.byteAt_congr (s.setIdx_ram w) (s.setIdx_params w)

/-- 45_memory_index.md R230: LD I sets `idx` to the zero-extended literal. -/
theorem exec_ldI (nnn : Imm12) (s : State) : exec (.ldI nnn) s = .next (s.setIdx (zext12 nnn)).advance := rfl

/-- Settles O48: LD I is a write of `idx`, and the literal's zero extension keeps its value. -/
theorem loadIndexImmediate : Obligations.LoadIndexImmediate := by
  intro nnn s
  have hidx : (s.setIdx (zext12 nnn)).advance.idx.toNat = nnn.toNat := by
    rw [State.advance_idx, State.setIdx_idx, zext12_toNat]
  exact ⟨_, exec_ldI nnn s, hidx, rfl, sameBytes_advance_setIdx s _⟩

end Sys2Proof.Proofs
end

section
/-! Flag store (47_storage.md): the flag transfers by mode, the bytes a save persists, and the statement about their
reach. -/

namespace Sys2Proof.Proofs

open Sys2Proof.Machine Sys2Proof.Claims

/-! ## The transfers by mode -/

section Transfers

variable {s : State} (x : Reg)

/-- 47_storage.md R268: a save is a no-op in CHIP8 mode. -/
theorem exec_ldRVx_of_chip8 (h : s.mode = .chip8) : exec (.ldRVx x) s = .next s.advance := by
  change execLdRVx x s = _
  rw [execLdRVx, h, flagReach_chip8]

/-- 47_storage.md R268: a load is a no-op in CHIP8 mode. -/
theorem exec_ldVxR_of_chip8 (h : s.mode = .chip8) : exec (.ldVxR x) s = .next s.advance := by
  change execLdVxR x s = _
  rw [execLdVxR, h, flagReach_chip8]

/-- 47_storage.md R266, R267, R268: outside CHIP8 mode both transfers reach the same last flag. -/
theorem exec_flagTransfers_of_ne_chip8 (h : s.mode ≠ .chip8) : ∃ last : Fin 16, last.val = lastFlag s.mode x ∧
    exec (.ldRVx x) s = .next { s with
      rpl := upsert s.v s.rpl last, events := s.events ++ [.persist ((regRange 0 last).map s.reg)], pc := s.pc + 2 } ∧
    exec (.ldVxR x) s = .next { s with v := upsert s.rpl s.v last, pc := s.pc + 2 } := by
  obtain ⟨last, hreach, hlast⟩ := flagReach_some x h
  exact ⟨last, hlast, execLdRVx_of_reach hreach, execLdVxR_of_reach hreach⟩

end Transfers

/-! ## The persisted bytes -/

theorem length_regRange_zero (last : Reg) : (regRange 0 last).length = last.val + 1 := by
  rw [regRange_zero, List.length_map, List.length_range]

/-- A range walked up from V0 holds each register at its own index. -/
theorem regRange_zero_getElem? {last i : Reg} (h : i.val ≤ last.val) : (regRange 0 last)[i.val]? = some i := by
  have hi : i.val < last.val + 1 := Nat.lt_succ_of_le h
  rw [regRange_zero, List.getElem?_map, List.getElem?_range hi, Option.map_some, Fin.ofNat_val_eq_self]

/-- Settles O59: in CHIP8 mode both transfers only advance; otherwise each is one upsert up to the last flag within
reach, and the bytes a save persists are V0 up to that register. -/
theorem flagTransfersReachModeLimit : Obligations.FlagTransfersReachModeLimit := by
  intro x s
  refine ⟨fun h => ⟨exec_ldRVx_of_chip8 x h, exec_ldVxR_of_chip8 x h⟩, fun h => ?_, fun h => ?_⟩
  · obtain ⟨last, hlast, hsave, -⟩ := exec_flagTransfers_of_ne_chip8 x h
    rw [← hlast]
    refine ⟨_, hsave, upsert_getElem s.v s.rpl last, ⟨_, rfl, ?_, fun i hi => ?_⟩, rfl, State.byteAt_congr rfl rfl⟩
    · rw [List.length_map, length_regRange_zero]
    · rw [List.getElem?_map, regRange_zero_getElem? hi, Option.map_some]
  · obtain ⟨last, hlast, -, hload⟩ := exec_flagTransfers_of_ne_chip8 x h
    rw [← hlast]
    exact ⟨_, hload, upsert_getElem s.rpl s.v last, rfl, State.byteAt_congr rfl rfl⟩

end Sys2Proof.Proofs
end

section
/-! Encoding (30_encoding.md): the decoder and the encoder are inverse, and the decoder follows the opcode table. -/

namespace Sys2Proof.Proofs

open Sys2Proof.Machine Sys2Proof.Claims

/-! ## The decoder inverts the encoder -/

/-- Settles O1: the round trip of each instruction, from the nibbles that select it. -/
theorem decodeOfEncodeIsIdentity : Obligations.DecodeOfEncodeIsIdentity := by
  intro i
  cases i with
  | scd n => exact Laws.RoundTrip.scd n
  | scu n => exact Laws.RoundTrip.scu n
  | cls => exact Laws.RoundTrip.cls
  | ret => exact Laws.RoundTrip.ret
  | scr => exact Laws.RoundTrip.scr
  | scl => exact Laws.RoundTrip.scl
  | exit => exact Laws.RoundTrip.exit
  | low => exact Laws.RoundTrip.low
  | high => exact Laws.RoundTrip.high
  | jp nnn => exact Laws.RoundTrip.jp nnn
  | call nnn => exact Laws.RoundTrip.call nnn
  | seImm x nn => exact Laws.RoundTrip.seImm x nn
  | sneImm x nn => exact Laws.RoundTrip.sneImm x nn
  | seReg x y => exact Laws.RoundTrip.seReg x y
  | save x y => exact Laws.RoundTrip.save x y
  | load x y => exact Laws.RoundTrip.load x y
  | ldImm x nn => exact Laws.RoundTrip.ldImm x nn
  | addImm x nn => exact Laws.RoundTrip.addImm x nn
  | ldReg x y => exact Laws.RoundTrip.ldReg x y
  | orReg x y => exact Laws.RoundTrip.orReg x y
  | andReg x y => exact Laws.RoundTrip.andReg x y
  | xorReg x y => exact Laws.RoundTrip.xorReg x y
  | addReg x y => exact Laws.RoundTrip.addReg x y
  | sub x y => exact Laws.RoundTrip.sub x y
  | shr x y => exact Laws.RoundTrip.shr x y
  | subn x y => exact Laws.RoundTrip.subn x y
  | shl x y => exact Laws.RoundTrip.shl x y
  | sneReg x y => exact Laws.RoundTrip.sneReg x y
  | ldI nnn => exact Laws.RoundTrip.ldI nnn
  | jpV0 nnn => exact Laws.RoundTrip.jpV0 nnn
  | rnd x nn => exact Laws.RoundTrip.rnd x nn
  | drw x y n => exact Laws.RoundTrip.drw x y n
  | skp x => exact Laws.RoundTrip.skp x
  | sknp x => exact Laws.RoundTrip.sknp x
  | ldlI nnnn => exact Laws.RoundTrip.ldlI nnnn
  | audio => exact Laws.RoundTrip.audio
  | plane x => exact Laws.RoundTrip.plane x
  | ldVxDt x => exact Laws.RoundTrip.ldVxDt x
  | ldVxK x => exact Laws.RoundTrip.ldVxK x
  | ldDtVx x => exact Laws.RoundTrip.ldDtVx x
  | ldStVx x => exact Laws.RoundTrip.ldStVx x
  | addI x => exact Laws.RoundTrip.addI x
  | ldF x => exact Laws.RoundTrip.ldF x
  | ldHf x => exact Laws.RoundTrip.ldHf x
  | ldB x => exact Laws.RoundTrip.ldB x
  | pitch x => exact Laws.RoundTrip.pitch x
  | storeRegs x => exact Laws.RoundTrip.storeRegs x
  | loadRegs x => exact Laws.RoundTrip.loadRegs x
  | ldRVx x => exact Laws.RoundTrip.ldRVx x
  | ldVxR x => exact Laws.RoundTrip.ldVxR x

/-! ## The encoder inverts the decoder -/

theorem encode_of_decode0 {b c d : Nibble} {i : Instr} (h : decode0 b c d = some i) :
    encode i = [nibbles 0x0 b c d] := by
  unfold decode0 at h
  split at h <;> cases h <;> rfl

theorem encode_of_decode5 {b c d : Nibble} {i : Instr} (h : decode5 (regOf b) (regOf c) d = some i) :
    encode i = [nibbles 0x5 b c d] := by
  unfold decode5 at h
  split at h <;> cases h <;> rfl

theorem encode_of_decode8 {b c d : Nibble} {i : Instr} (h : decode8 (regOf b) (regOf c) d = some i) :
    encode i = [nibbles 0x8 b c d] := by
  unfold decode8 at h
  split at h <;> cases h <;> rfl

theorem encode_of_decode9 {b c d : Nibble} {i : Instr} (h : decode9 (regOf b) (regOf c) d = some i) :
    encode i = [nibbles 0x9 b c d] := by
  unfold decode9 at h
  split at h
  · cases h; rfl
  · cases h

theorem encode_of_decodeE {b c d : Nibble} {i : Instr} (h : decodeE (regOf b) c d = some i) :
    encode i = [nibbles 0xE b c d] := by
  unfold decodeE at h
  split at h <;> cases h <;> rfl

theorem encode_of_decodeF {b c d : Nibble} {i : Instr} (h : decodeF b c d = some i) :
    encode i = [nibbles 0xF b c d] := by
  unfold decodeF at h
  split at h
  case h_2 =>
    split at h
    · next hb => cases h; rw [hb]; rfl
    · cases h
  case h_16 => cases h
  all_goals cases h; rfl

/-- The word of an address literal's fields. -/
theorem word_addrOf (a b c d : Nibble) :
    [nibbles a (addrX (addrOf b c d)) (addrY (addrOf b c d)) (addrN (addrOf b c d))] = [nibbles a b c d] := by
  rw [addrX_addrOf, addrY_addrOf, addrN_addrOf]

/-- The word of a register and an 8-bit literal's fields. -/
theorem word_immOf (a b c d : Nibble) :
    [nibbles a (ofReg (regOf b)) (immHi (immOf c d)) (immLo (immOf c d))] = [nibbles a b c d] := by
  rw [ofReg_regOf, immHi_immOf, immLo_immOf]

/-- Four nibbles that select an instruction are its word. -/
theorem encode_of_decodeNibbles {a b c d : Nibble} {i : Instr} (h : decodeNibbles a b c d = some i) :
    encode i = [nibbles a b c d] := by
  unfold decodeNibbles at h
  split at h
  case h_1 => exact encode_of_decode0 h
  case h_2 => cases h; exact word_addrOf ..
  case h_3 => cases h; exact word_addrOf ..
  case h_4 => cases h; exact word_immOf ..
  case h_5 => cases h; exact word_immOf ..
  case h_6 => exact encode_of_decode5 h
  case h_7 => cases h; exact word_immOf ..
  case h_8 => cases h; exact word_immOf ..
  case h_9 => exact encode_of_decode8 h
  case h_10 => exact encode_of_decode9 h
  case h_11 => cases h; exact word_addrOf ..
  case h_12 => cases h; exact word_addrOf ..
  case h_13 => cases h; exact word_immOf ..
  case h_14 => cases h; rfl
  case h_15 => exact encode_of_decodeE h
  case h_16 =>
    have ha : a = 0xF := by
      clear h
      revert a
      decide
    rw [ha]
    exact encode_of_decodeF h

theorem encode_of_decodeShort {w : Word} {i : Instr} (h : decodeShort w = some i) : encode i = [w] := by
  rw [encode_of_decodeNibbles h, nibbles_fields]

/-- 30_encoding.md R90: a decoded instruction's first word is the word decoded, and the words after it, if any, are taken
from the bytes that follow. -/
theorem encode_of_decodeFrom {w : Word} {bytes rest : List Byte} {i : Instr} (h : decodeFrom w bytes = .instr i rest) :
    ∃ ws, encode i = w :: ws ∧ bytesOfWords ws ++ rest = bytes := by
  unfold decodeFrom at h
  split at h
  · next hw =>
    unfold decodeLong at h
    split at h <;> cases h
    next b2 b3 =>
    refine ⟨[bigEndian b2 b3], by rw [hw]; rfl, ?_⟩
    show hiByte (bigEndian b2 b3) :: loByte (bigEndian b2 b3) :: rest = _
    rw [hiByte_bigEndian, loByte_bigEndian]
  · split at h <;> cases h
    next hi => exact ⟨[], encode_of_decodeShort hi, rfl⟩

/-- Settles O2: the first two bytes are those of the word decoded, the others those of the words after it. -/
theorem encodeOfDecodeIsIdentity : Obligations.EncodeOfDecodeIsIdentity := by
  intro bytes i rest h
  unfold decode at h
  split at h
  · next hi lo tail =>
    obtain ⟨ws, hws, rfl⟩ := encode_of_decodeFrom h
    rw [encodeBytes, hws]
    show hiByte (bigEndian hi lo) :: loByte (bigEndian hi lo) :: (bytesOfWords ws ++ rest) = _
    rw [hiByte_bigEndian, loByte_bigEndian]
  · cases h

/-! ## The opcode table -/

/-- A mask of whole nibbles works nibble by nibble. -/
theorem nibbles_and (a b c d a' b' c' d' : Nibble) :
    nibbles a b c d &&& nibbles a' b' c' d' = nibbles (a &&& a') (b &&& b') (c &&& c') (d &&& d') := by
  have h : (a ++ b ++ c ++ d) &&& (a' ++ b' ++ c' ++ d') = (a &&& a') ++ (b &&& b') ++ (c &&& c') ++ (d &&& d') := by
    simp only [BitVec.and_append]
  exact h

theorem and_F (a : Nibble) : a &&& 0xF = a := BitVec.and_allOnes

theorem and_0 (a : Nibble) : a &&& 0 = 0 := BitVec.and_zero

theorem nibbles_and_F000 (a b c d : Nibble) : nibbles a b c d &&& 0xF000 = nibbles a 0 0 0 := by
  refine (nibbles_and a b c d 0xF 0 0 0).trans ?_
  rw [and_F, and_0, and_0, and_0]

theorem nibbles_and_F00F (a b c d : Nibble) : nibbles a b c d &&& 0xF00F = nibbles a 0 0 d := by
  refine (nibbles_and a b c d 0xF 0 0 0xF).trans ?_
  rw [and_F, and_0, and_0, and_F]

theorem nibbles_and_F0FF (a b c d : Nibble) : nibbles a b c d &&& 0xF0FF = nibbles a 0 c d := by
  refine (nibbles_and a b c d 0xF 0 0xF 0xF).trans ?_
  rw [and_F, and_0, and_F, and_F]

theorem nibbles_and_FFF0 (a b c d : Nibble) : nibbles a b c d &&& 0xFFF0 = nibbles a b c 0 := by
  refine (nibbles_and a b c d 0xF 0xF 0xF 0).trans ?_
  rw [and_F, and_F, and_F, and_0]

/-- 30_encoding.md R92, R94: an instruction's first word matches the instruction's row. -/
theorem row_of_encode {i : Instr} {w : Word} {ws : List Word} (h : encode i = w :: ws) :
    w &&& (rowOf i).2 = (rowOf i).1 := by
  cases i with
  | scd n | scu n => cases h; exact nibbles_and_FFF0 ..
  | cls | ret | scr | scl | exit | low | high | ldlI nnnn | audio => cases h; exact BitVec.and_allOnes
  | jp nnn | call nnn | seImm x nn | sneImm x nn | ldImm x nn | addImm x nn | ldI nnn | jpV0 nnn | rnd x nn
  | drw x y n => cases h; exact nibbles_and_F000 ..
  | seReg x y | save x y | load x y | ldReg x y | orReg x y | andReg x y | xorReg x y | addReg x y | sub x y | shr x y
  | subn x y | shl x y | sneReg x y => cases h; exact nibbles_and_F00F ..
  | skp x | sknp x | plane x | ldVxDt x | ldVxK x | ldDtVx x | ldStVx x | addI x | ldF x | ldHf x | ldB x | pitch x
  | storeRegs x | loadRegs x | ldRVx x | ldVxR x => cases h; exact nibbles_and_F0FF ..

/-- Where a row's mask is F, a word that matches the row has the row's nibble. -/
theorem fields_of_row {w mask m : Word} (h : w &&& mask = m) :
    (fieldN1 mask = 0xF → fieldN1 w = fieldN1 m) ∧ (fieldX mask = 0xF → fieldX w = fieldX m) ∧
    (fieldY mask = 0xF → fieldY w = fieldY m) ∧ (fieldN mask = 0xF → fieldN w = fieldN m) := by
  have hfields : m = nibbles (fieldN1 w &&& fieldN1 mask) (fieldX w &&& fieldX mask) (fieldY w &&& fieldY mask)
      (fieldN w &&& fieldN mask) := by
    rw [← nibbles_and, nibbles_fields, nibbles_fields, h]
  rw [hfields, fieldN1_nibbles, fieldX_nibbles, fieldY_nibbles, fieldN_nibbles]
  refine ⟨fun k => ?_, fun k => ?_, fun k => ?_, fun k => ?_⟩ <;> rw [k, and_F]

/-- 30_encoding.md R94: a word that matches a row is an instruction's. -/
theorem decodeShort_of_row {i : Instr} {w : Word} (h : w &&& (rowOf i).2 = (rowOf i).1) (hw : w ≠ 0xF000) :
    ∃ j, decodeShort w = some j := by
  rw [decodeShort]
  cases i with
  | scd n | scu n =>
    simp only [rowOf] at h
    obtain ⟨h1, hX, hY, -⟩ := fields_of_row h
    rw [h1 rfl, hX rfl, hY rfl]
    exact ⟨_, rfl⟩
  | ldlI nnnn => exact absurd ((BitVec.and_allOnes (x := w)).symm.trans h) hw
  | cls | ret | scr | scl | exit | low | high | audio =>
    rw [(BitVec.and_allOnes (x := w)).symm.trans h]
    exact ⟨_, rfl⟩
  | jp nnn | call nnn | seImm x nn | sneImm x nn | ldImm x nn | addImm x nn | ldI nnn | jpV0 nnn | rnd x nn
  | drw x y n =>
    simp only [rowOf] at h
    rw [(fields_of_row h).1 rfl]
    exact ⟨_, rfl⟩
  | seReg x y | save x y | load x y | ldReg x y | orReg x y | andReg x y | xorReg x y | addReg x y | sub x y | shr x y
  | subn x y | shl x y | sneReg x y =>
    simp only [rowOf] at h
    obtain ⟨h1, -, -, hN⟩ := fields_of_row h
    rw [h1 rfl, hN rfl]
    exact ⟨_, rfl⟩
  | skp x | sknp x | plane x | ldVxDt x | ldVxK x | ldDtVx x | ldStVx x | addI x | ldF x | ldHf x | ldB x | pitch x
  | storeRegs x | loadRegs x | ldRVx x | ldVxR x =>
    simp only [rowOf] at h
    obtain ⟨h1, -, hY, hN⟩ := fields_of_row h
    rw [h1 rfl, hY rfl, hN rfl]
    exact ⟨_, rfl⟩

/-- Settles O3: a word decodes to an instruction whose first word it is, so it matches that row; and each row's fixed
nibbles select an instruction. -/
theorem decoderFollowsOpcodeTable : Obligations.DecoderFollowsOpcodeTable := by
  intro op b2 b3
  have hdecode : decode [op.extractLsb' 8 8, op.extractLsb' 0 8, b2, b3] = decodeFrom op [b2, b3] :=
    decode_bytes op [b2, b3]
  rw [hdecode]
  by_cases hop : op = 0xF000
  · subst hop
    have hlong : decodeFrom 0xF000 [b2, b3] = .instr (.ldlI (bigEndian b2 b3)) [] := if_pos rfl
    have hrow : (0xF000 : Word) &&& (rowOf (.ldlI (bigEndian b2 b3))).2 = (rowOf (.ldlI (bigEndian b2 b3))).1 :=
      BitVec.and_allOnes
    refine ⟨fun i rest h => ?_, fun _ => ⟨_, _, hlong⟩, fun hunknown => absurd ⟨_, hrow⟩ hunknown⟩
    rw [hlong] at h
    cases h
    exact ⟨hrow, rfl⟩
  · cases hshort : decodeShort op with
    | some j =>
      have hsome := decodeFrom_some [b2, b3] hop hshort
      have hrow := row_of_encode (encode_of_decodeShort hshort)
      refine ⟨fun i rest h => ?_, fun _ => ⟨_, _, hsome⟩, fun hunknown => absurd ⟨_, hrow⟩ hunknown⟩
      rw [hsome] at h
      cases h
      exact ⟨hrow, (if_neg hop).symm⟩
    | none =>
      have hnone := decodeFrom_none [b2, b3] hop hshort
      refine ⟨fun i rest h => ?_, fun ⟨i, hrow⟩ => ?_, fun _ => hnone⟩
      · rw [hnone] at h
        cases h
      · obtain ⟨j, hj⟩ := decodeShort_of_row hrow hop
        rw [hshort] at hj
        cases hj

/-- Settles O4: closed words, decoded by computation. -/
theorem sampleWordsDecode : Obligations.SampleWordsDecode := by
  unfold Obligations.SampleWordsDecode
  decide

end Sys2Proof.Proofs
end

section
/-! Control flow (40_control_flow.md, 44_input.md): the offset jump, the return stack and the six skips. -/

namespace Sys2Proof.Proofs

open Sys2Proof.Machine Sys2Proof.Claims

/-! ## JP V0 -/

/-- 40_control_flow.md R131, read as BXNN. -/
theorem exec_jpV0_of_schip {s : State} (h : s.mode = .schip) (nnn : Imm12) :
    exec (.jpV0 nnn) s = .next (s.jump (zext8 (addrNN nnn) + zext8 (s.reg (regOf (addrX nnn))))) :=
  if_pos ((qJumpVx_eq_true s.mode).2 h)

/-- 40_control_flow.md R131, in the other modes. -/
theorem exec_jpV0_of_ne_schip {s : State} (h : s.mode ≠ .schip) (nnn : Imm12) :
    exec (.jpV0 nnn) s = .next (s.jump (zext12 nnn + zext8 (s.reg 0))) :=
  if_neg fun hq => h ((qJumpVx_eq_true s.mode).1 hq)

theorem addrNN_toNat (nnn : Imm12) : (addrNN nnn).toNat = nnn.toNat % 256 := by
  rw [addrNN, extract_toNat, Nat.pow_zero, Nat.div_one]
  rfl

/-- The X field of a 12-bit literal is its part above 256. -/
theorem regOf_addrX {nnn : Imm12} {x : Reg} (h : x.val = nnn.toNat / 256) : regOf (addrX nnn) = x := by
  apply Fin.ext
  show (addrX nnn).toNat = x.val
  rw [addrX, extract_toNat, h]
  omega

/-- Settles O25: the base and the register by mode; neither sum reaches 65536. -/
theorem offsetJumpAddsRegister : Obligations.OffsetJumpAddsRegister := by
  intro nnn s
  by_cases hmode : s.mode = .schip
  · refine ⟨_, exec_jpV0_of_schip hmode nnn, onlyPc_jump s _, fun _ x hx => ?_, fun h => absurd hmode h⟩
    rw [State.jump_pc, regOf_addrX hx, BitVec.toNat_add, zext8_toNat, zext8_toNat, addrNN_toNat]
    omega
  · refine ⟨_, exec_jpV0_of_ne_schip hmode nnn, onlyPc_jump s _, fun h => absurd h hmode, fun _ => ?_⟩
    rw [State.jump_pc, BitVec.toNat_add, zext12_toNat, zext8_toNat]
    omega

/-! ## CALL and RET -/

theorem exec_call_of_full {s : State} (h : s.sp = 15) (nnn : Imm12) :
    exec (.call nnn) s = .next (s.raiseFault (.overflow s.pc)) := if_pos (congrArg Fin.val h)

/-- 40_control_flow.md R128: CALL pushes the address after it on the slot above. -/
theorem exec_call_of_room {s : State} (h : s.sp ≠ 15) (nnn : Imm12) :
    ∃ sp : Fin 16, sp.val = s.sp.val + 1 ∧
      exec (.call nnn) s = .next { s with sp := sp, stack := s.stack.set sp.val (s.pc + 2), pc := zext12 nnn } := by
  have hsp : s.sp.val ≠ 15 := fun e => h (Fin.ext e)
  exact ⟨Fin.ofNat 16 (s.sp.val + 1), by rw [Fin.val_ofNat]; omega, if_neg hsp⟩

/-- Settles O26: the pushed slot holds the return address, the others are as before; on a full stack CALL faults. -/
theorem callPushesOrOverflows : Obligations.CallPushesOrOverflows := by
  intro nnn s
  refine ⟨fun h => ?_, fun h => exec_call_of_full h nnn⟩
  obtain ⟨sp, hsp, hexec⟩ := exec_call_of_room h nnn
  refine ⟨_, hexec, zext12_toNat nnn, hsp, Vector.getElem_set_self .., fun i hi => ?_, rfl, State.byteAt_congr rfl rfl⟩
  exact Vector.getElem_set_ne sp.isLt i.isLt fun e => hi (Fin.ext e.symm)

theorem exec_ret_of_empty {s : State} (h : s.sp = 0) :
    exec .ret s = .next (s.raiseFault (.underflow s.pc)) := if_pos (congrArg Fin.val h)

/-- 40_control_flow.md R129: RET pops the top slot. -/
theorem exec_ret_of_pushed {s : State} (h : s.sp ≠ 0) :
    ∃ sp : Fin 16, sp.val + 1 = s.sp.val ∧ exec .ret s = .next { s with pc := s.stack[s.sp.val], sp := sp } := by
  have hsp : s.sp.val ≠ 0 := fun e => h (Fin.ext e)
  exact ⟨Fin.ofNat 16 (s.sp.val - 1), by rw [Fin.val_ofNat]; omega, if_neg hsp⟩

/-- Settles O27: RET goes back to the top slot; on an empty stack it faults. -/
theorem returnPopsOrUnderflows : Obligations.ReturnPopsOrUnderflows := by
  intro s
  refine ⟨fun h => ?_, fun h => exec_ret_of_empty h⟩
  obtain ⟨sp, hsp, hexec⟩ := exec_ret_of_pushed h
  exact ⟨_, hexec, rfl, hsp, rfl, State.byteAt_congr rfl rfl⟩

/-! ## Skips -/

/-- 40_control_flow.md R124: where the skip action leaves the program counter. -/
theorem pc_skipIf (s : State) (skip : Bool) : (s.skipIf skip).pc = skipTarget s skip := by
  cases skip with
  | false => rfl
  | true =>
    have hnext : s.pc + 2 + 1 = s.pc + 3 := BitVec.add_assoc ..
    have hlong := s.wordAt_eq_long (s.pc + 2)
    rw [hnext] at hlong
    rw [State.skipIf, skipTarget, if_pos rfl, if_neg (show ¬ true = false from Bool.noConfusion)]
    by_cases h : s.wordAt (s.pc + 2) = 0xF000#16
    · rw [if_pos h]
      exact (if_pos (hlong.1 h)).symm
    · rw [if_neg h]
      exact (if_neg fun e => h (hlong.2 e)).symm

theorem bne_eq_decide (a b : Byte) : (a != b) = decide (a ≠ b) := by
  rw [bne, beq_eq_decide, decide_not]

/-- A skip on a condition, within the frame `OnlyPc`. -/
theorem skipIf_spec (s : State) {skip c : Bool} (h : skip = c) :
    ∃ t, (.next (s.skipIf skip) : Result) = .next t ∧ t.pc = skipTarget s c ∧ OnlyPc s t := by
  subst h
  refine ⟨_, rfl, pc_skipIf s skip, ?_⟩
  rw [s.skipIf_eq_jump skip]
  exact onlyPc_jump s _

/-- 44_input.md R220: the key that a register's low four bits select. -/
theorem key_lowNibble {s : State} {x : Reg} {k : Fin 16} (h : k.val = (s.reg x).toNat % 16) :
    s.key (lowNibble (s.reg x)) = s.keys[k.val] := by
  have hk : lowNibble (s.reg x) = k := Fin.ext ((lowNibble_val _).trans h.symm)
  rw [hk]
  rfl

/-- Settles O29: each of the six is the skip action on its condition. -/
theorem skipsFollowCondition : Obligations.SkipsFollowCondition := by
  intro x y nn s
  refine ⟨skipIf_spec s (beq_eq_decide ..), skipIf_spec s (bne_eq_decide ..), skipIf_spec s (beq_eq_decide ..),
    skipIf_spec s (bne_eq_decide ..), fun k hk => ⟨skipIf_spec s (key_lowNibble hk), ?_⟩⟩
  exact skipIf_spec s (congrArg not (key_lowNibble hk))

end Sys2Proof.Proofs
end

section
/-! Framebuffer (41_framebuffer.md): the scrolls cell by cell, and the resolution switches. -/

namespace Sys2Proof.Proofs

open Sys2Proof.Machine Sys2Proof.Claims

/-! ## Cells of scrolled planes -/

/-- A cell inside the buffer is the bit of its row. -/
theorem cellOf_of_lt (p : Plane) (x : Nat) {y : Nat} (h : y < 64) : cellOf p x y = p[y].getLsbD x := dif_pos h

/-- 41_framebuffer.md R151. -/
theorem cellOf_scrollDown (p : Plane) (n x : Nat) {y : Nat} (h : y < 64) :
    cellOf (p.scrollDown n) x y = if n ≤ y then cellOf p x (y - n) else false := by
  rw [cellOf_of_lt _ _ h, Plane.scrollDown_row p n h]
  split
  · have hsrc : y - n < 64 := by omega
    rw [Plane.row_of_lt p hsrc, cellOf_of_lt p x hsrc]
  · exact BitVec.getLsbD_zero

/-- 41_framebuffer.md R152. -/
theorem cellOf_scrollUp (p : Plane) (n x : Nat) {y : Nat} (h : y < 64) :
    cellOf (p.scrollUp n) x y = if y + n < 64 then cellOf p x (y + n) else false := by
  rw [cellOf_of_lt _ _ h, Plane.scrollUp_row p n h]
  split
  · next hsrc => rw [Plane.row_of_lt p hsrc, cellOf_of_lt p x hsrc]
  · exact BitVec.getLsbD_zero

/-- 41_framebuffer.md R154: the cell four columns to the left is the bit four below. -/
theorem cellOf_scrollRight4 (p : Plane) {x y : Nat} (hx : x < 128) (h : y < 64) :
    cellOf p.scrollRight4 x y = if 4 ≤ x then cellOf p (x - 4) y else false := by
  rw [cellOf_of_lt _ _ h, Plane.scrollRight4_row p h, BitVec.getLsbD_shiftLeft, cellOf_of_lt p _ h]
  by_cases h4 : x < 4
  · simp [h4, Nat.not_le.2 h4]
  · simp [h4, Nat.not_lt.1 h4, hx]

/-- 41_framebuffer.md R155: the cell four columns to the right is the bit four above. -/
theorem cellOf_scrollLeft4 (p : Plane) (x : Nat) {y : Nat} (h : y < 64) :
    cellOf p.scrollLeft4 x y = if x + 4 < 128 then cellOf p (x + 4) y else false := by
  rw [cellOf_of_lt _ _ h, Plane.scrollLeft4_row p h, BitVec.getLsbD_ushiftRight, cellOf_of_lt p _ h, Nat.add_comm]
  split
  · rfl
  · next hout => exact BitVec.getLsbD_of_ge _ _ (Nat.not_lt.1 hout)

/-! ## Scrolls -/

/-- A cell after an update of the selected planes by a function whose cells are known. -/
theorem cellOf_updatePlanes (s : State) {f : Plane → Plane} {p : Fin 2} {x y : Nat} {b : Bool}
    (h : cellOf (f (s.plane p)) x y = b) :
    cellOf ((s.updatePlanes f).advance.plane p) x y =
      if s.planeMask.getLsbD p.val then b else cellOf (s.plane p) x y := by
  rw [plane_advance_updatePlanes, ← h, apply_ite (cellOf · x y)]

section Scrolls

variable (n : Nibble) (s : State)

/-- 41_framebuffer.md R151. -/
theorem exec_scd : exec (.scd n) s = .next (s.updatePlanes fun p => p.scrollDown n.toNat).advance := rfl

/-- 41_framebuffer.md R152. -/
theorem exec_scu : exec (.scu n) s = .next (s.updatePlanes fun p => p.scrollUp n.toNat).advance := rfl

/-- 41_framebuffer.md R154. -/
theorem exec_scr : exec .scr s = .next (s.updatePlanes Plane.scrollRight4).advance := rfl

/-- 41_framebuffer.md R155. -/
theorem exec_scl : exec .scl s = .next (s.updatePlanes Plane.scrollLeft4).advance := rfl

end Scrolls

/-- Settles O30: SCD and SCU update the selected planes row by row. -/
theorem verticalScrollsMoveRows : Obligations.VerticalScrollsMoveRows := by
  intro n s
  constructor
  · exact ⟨_, exec_scd n s, onlyPlanes_updatePlanes s _, fun p x y _ hy =>
      cellOf_updatePlanes s (cellOf_scrollDown (s.plane p) n.toNat x hy)⟩
  · exact ⟨_, exec_scu n s, onlyPlanes_updatePlanes s _, fun p x y _ hy =>
      cellOf_updatePlanes s (cellOf_scrollUp (s.plane p) n.toNat x hy)⟩

/-- Settles O31: SCR and SCL update the selected planes by a shift of each row. -/
theorem horizontalScrollsMoveColumns : Obligations.HorizontalScrollsMoveColumns := by
  intro s
  constructor
  · exact ⟨_, exec_scr s, onlyPlanes_updatePlanes s _, fun p x y hx hy =>
      cellOf_updatePlanes s (cellOf_scrollRight4 (s.plane p) hx hy)⟩
  · exact ⟨_, exec_scl s, onlyPlanes_updatePlanes s _, fun p x y _ hy =>
      cellOf_updatePlanes s (cellOf_scrollLeft4 (s.plane p) x hy)⟩

/-! ## LOW and HIGH -/

/-- 41_framebuffer.md R156. -/
theorem exec_low (s : State) : exec .low s = .next { s with hires := false }.advance := rfl

/-- 41_framebuffer.md R157. -/
theorem exec_high (s : State) : exec .high s = .next { s with hires := true }.advance := rfl

/-- Settles O33: each is one write of `hires`. -/
theorem resolutionSwitchesOnlyHires : Obligations.ResolutionSwitchesOnlyHires := by
  intro s
  exact ⟨⟨_, exec_low s, rfl, State.byteAt_congr rfl rfl⟩, ⟨_, exec_high s, rfl, State.byteAt_congr rfl rfl⟩⟩

end Sys2Proof.Proofs
end

section
/-! Register copies, the random source, the timers and the audio outputs (42_alu.md, 46_timers_audio.md). -/

namespace Sys2Proof.Proofs

open Sys2Proof.Machine Sys2Proof.Claims

section Instructions

variable (x y : Reg) (s : State)

/-- 42_alu.md R172. -/
theorem exec_ldReg : exec (.ldReg x y) s = .next (s.setReg x (s.reg y)).advance := rfl

/-- 42_alu.md R190. -/
theorem exec_rnd (nn : Byte) : exec (.rnd x nn) s =
    .next { s.setReg x (Config.rnd s.fresh &&& nn) with fresh := s.fresh + 1 }.advance := rfl

/-- 46_timers_audio.md R250. -/
theorem exec_ldVxDt : exec (.ldVxDt x) s = .next (s.setReg x s.delayTimer).advance := rfl

/-- 46_timers_audio.md R251. -/
theorem exec_ldDtVx : exec (.ldDtVx x) s = .next { s with delayTimer := s.reg x }.advance := rfl

/-- 46_timers_audio.md R252. -/
theorem exec_ldStVx : exec (.ldStVx x) s = .next { s with soundTimer := s.reg x }.advance := rfl

/-- 46_timers_audio.md R254. -/
theorem exec_pitch : exec (.pitch x) s = .next ({ s with pitch := s.reg x }.emit (.setPitch (s.reg x))).advance := rfl

end Instructions

/-- Settles O37: one register write. -/
theorem copyWritesRegister : Obligations.CopyWritesRegister := by
  intro x y s
  exact ⟨_, exec_ldReg x y s, State.reg_setReg_same .., onlyRegs_setReg s x _⟩

/-- Settles O42: one register write, of the draw masked bit by bit. -/
theorem randomMasksFreshByte : Obligations.RandomMasksFreshByte := by
  intro x nn s
  refine ⟨_, exec_rnd x s nn, fun k _ => ?_, rfl, fun r hr => s.reg_setReg_other _ hr, State.byteAt_congr rfl rfl⟩
  have hx : ({ s.setReg x (Config.rnd s.fresh &&& nn) with fresh := s.fresh + 1 } : State).advance.reg x =
      Config.rnd s.fresh &&& nn := s.reg_setReg_same x _
  rw [hx, BitVec.getLsbD_and]

/-- Settles O56: one register write, and one write of the delay timer. -/
theorem delayTimerReadAndWrite : Obligations.DelayTimerReadAndWrite := by
  intro x s
  exact ⟨⟨_, exec_ldVxDt x s, State.reg_setReg_same .., onlyRegs_setReg s x _⟩,
    ⟨_, exec_ldDtVx x s, rfl, State.byteAt_congr rfl rfl⟩⟩

/-- Settles O57: one write of the sound timer. -/
theorem soundTimerWrite : Obligations.SoundTimerWrite := by
  intro x s
  exact ⟨_, exec_ldStVx x s, rfl, rfl, State.byteAt_congr rfl rfl⟩

/-- Settles O58: the pattern AUDIO writes is the one it emits; PITCH writes and emits VX. -/
theorem audioOutputsFollowInstructions : Obligations.AudioOutputsFollowInstructions := by
  intro x s
  obtain ⟨pattern, hpattern, hexec⟩ := execAudio_next s
  exact ⟨⟨_, hexec, hpattern, rfl, rfl, State.byteAt_congr rfl rfl⟩,
    ⟨_, exec_pitch x s, rfl, State.byteAt_congr rfl rfl⟩⟩

end Sys2Proof.Proofs
end

section
/-! Sprites (43_sprite.md): the display wait, what a performed draw changes, and which cells it toggles. -/

namespace Sys2Proof.Proofs

open Sys2Proof.Machine Sys2Proof.Claims

/-! ## Retried and performed draws -/

/-- Settles O43: the display wait holds, so DRW retries. -/
theorem drawRetriesUnderDisplayWait : Obligations.DrawRetriesUnderDisplayWait := by
  intro x y n s hmode hphase
  exact if_pos (s.drwWaits_iff.2 ⟨hmode, hphase⟩)

theorem flagByte_eq_zero_or_one (b : Bool) : flagByte b = 0 ∨ flagByte b = 1 := by
  cases b
  · exact .inl rfl
  · exact .inr rfl

/-- Settles O44: an update of the selected planes, then a write of VF with a flag. -/
theorem drawChangesPlanesAndVf : Obligations.DrawChangesPlanesAndVf := by
  intro x y n s hnow
  refine ⟨_, exec_drw_of_drawsNow hnow x y n, rfl, fun r hr => State.reg_setReg_other _ _ hr, ?_, fun p hp => ?_,
    State.byteAt_congr rfl rfl⟩
  · rw [show (15 : Reg) = vf from rfl, reg_advance, State.reg_setReg_same]
    exact flagByte_eq_zero_or_one _
  · have hplane := s.plane_updatePlanes (fun q => (blit (s.drwDots x y n) q).1) p
    rw [hp, if_neg Bool.false_ne_true] at hplane
    exact hplane

/-! ## The cells a sprite covers -/

/-- The buffer cell that sprite bit (r, c), sub-pixel (dx, dy), of a sprite drawn at (bx, by0) falls on is (px, py)
(43_sprite.md R204). -/
def FallsOn (s : State) (scale bx by0 r c dy dx px py : Nat) : Prop :=
  if s.mode = .xochip then (bx + c * scale + dx) % 128 = px ∧ (by0 + r * scale + dy) % 64 = py
  else bx + c * scale + dx = px ∧ by0 + r * scale + dy = py

/-- 43_sprite.md R202: the rows, columns and bytes per row of a sprite's shape. -/
theorem spriteShape_iff (s : State) (n : Nibble) (r c bpr : Nat) :
    (Wide s n ∧ r < 16 ∧ c < 16 ∧ bpr = 2 ∨ ¬ Wide s n ∧ r < n.toNat ∧ c < 8 ∧ bpr = 1) ↔
      r < (spriteShape s.hires n).rows ∧ c < (spriteShape s.hires n).cols ∧
        bpr = (spriteShape s.hires n).bytesPerRow := by
  unfold spriteShape Wide
  by_cases hh : s.hires = true
  · by_cases hn : n = 0#4 <;> simp [hh, hn]
  · simp [hh]

/-- A dot with bit 1 of a sprite of any shape lies on a cell exactly if some 1 bit falls there. -/
theorem litAt_spriteDots_iff (s : State) (sh : SpriteShape) (bx by0 : Nat) (px : Fin 128) (py : Fin 64) :
    litAt (s.spriteDots sh bx by0) px py = true ↔
      ∃ r < sh.rows, ∃ c < sh.cols, ∃ dy < sh.scale, ∃ dx < sh.scale,
        s.spriteBit sh.bytesPerRow r c = true ∧ FallsOn s sh.scale bx by0 r c dy dx px py := by
  simp only [litAt, List.any_eq_true, mem_spriteDots, Bool.and_eq_true, beq_iff_eq, Dot.place, Prod.mk.injEq]
  constructor
  · rintro ⟨d, ⟨r, hr, c, hc, dy, hdy, dx, hdx, hdot⟩, ⟨rfl, rfl⟩, hbit⟩
    obtain ⟨hb, hplace⟩ := (spriteDot_eq_some s sh bx by0 r c dy dx d).1 hdot
    simp only [qWrap_eq_true] at hplace
    exact ⟨r, hr, c, hc, dy, hdy, dx, hdx, hb.symm.trans hbit, hplace⟩
  · rintro ⟨r, hr, c, hc, dy, hdy, dx, hdx, hbit, hplace⟩
    refine ⟨⟨px, py, true⟩, ⟨r, hr, c, hc, dy, hdy, dx, hdx, ?_⟩, ⟨rfl, rfl⟩, rfl⟩
    rw [spriteDot_eq_some]
    simp only [qWrap_eq_true]
    exact ⟨hbit.symm, hplace⟩

/-- The 1 bits among the dots of a draw are those that `Covers` names. -/
theorem litAt_drwDots_iff (s : State) (x y : Reg) (n : Nibble) (px : Fin 128) (py : Fin 64) :
    litAt (s.drwDots x y n) px py = true ↔ Covers s x y n px py := by
  rw [State.drwDots, litAt_spriteDots_iff]
  simp only [Covers, spriteShape_iff]
  constructor
  · rintro ⟨r, hr, c, hc, dy, hdy, dx, hdx, hbit, hplace⟩
    exact ⟨r, c, dy, dx, _, _, ⟨hr, hc, rfl⟩, spriteShape_scale .., hdy, hdx, hbit, hplace⟩
  · rintro ⟨r, c, dy, dx, bpr, scale, ⟨hr, hc, rfl⟩, hscale, hdy, hdx, hbit, hplace⟩
    rw [← spriteShape_scale s.hires n] at hscale
    subst hscale
    exact ⟨r, hr, c, hc, dy, hdy, dx, hdx, hbit, hplace⟩

theorem drwToggles_iff (s : State) (x y : Reg) (n : Nibble) (p : Fin 2) (px : Fin 128) (py : Fin 64) :
    drwToggles s x y n p px py = true ↔ s.planeMask.getLsbD p.val = true ∧ Covers s x y n px py := by
  rw [drwToggles, Bool.and_eq_true, litAt_drwDots_iff]
  rfl

/-- Settles O45: a draw toggles each cell of a selected plane that a 1 bit covers, and collides where one was 1. -/
theorem drawTogglesCoveredCells : Obligations.DrawTogglesCoveredCells := by
  intro x y n s hnow
  obtain ⟨t, hexec⟩ := exec_total (.drw x y n) s
  refine ⟨t, hexec, fun p px py hpx hpy => ?_, ?_⟩
  · have hcell := cell_of_exec_drw hnow hexec p ⟨px, hpx⟩ ⟨py, hpy⟩
    rw [← cellOf_val, ← cellOf_val] at hcell
    rw [hcell, ← drwToggles_iff s x y n p ⟨px, hpx⟩ ⟨py, hpy⟩]
    cases cellOf (s.plane p) px py <;> simp
  · rw [show (15 : Reg) = vf from rfl, vf_of_exec_drw hnow hexec]
    constructor
    · rintro ⟨p, px, py, htoggles, hset⟩
      obtain ⟨hmask, hcovers⟩ := (drwToggles_iff s x y n p px py).1 htoggles
      exact ⟨p, px, py, px.isLt, py.isLt, hmask, (cellOf_val _ px py).trans hset, hcovers⟩
    · rintro ⟨p, px, py, hpx, hpy, hmask, hset, hcovers⟩
      exact ⟨p, ⟨px, hpx⟩, ⟨py, hpy⟩, (drwToggles_iff s x y n p ⟨px, hpx⟩ ⟨py, hpy⟩).2 ⟨hmask, hcovers⟩,
        (cellOf_val _ ⟨px, hpx⟩ ⟨py, hpy⟩).symm.trans hset⟩

end Sys2Proof.Proofs
end

section
/-! Keypad (44_input.md): LD Vx,K on a release edge and without one. -/

namespace Sys2Proof.Proofs

open Sys2Proof.Machine Sys2Proof.Claims

/-- 44_input.md R223: the wait ends with one of the released keys, or retries where there is none. -/
theorem exec_ldVxK_cases (x : Reg) (s : State) :
    (s.releasedKeys = [] ∧ exec (.ldVxK x) s = .next s) ∨
    ∃ k ∈ s.releasedKeys, ∃ fresh, exec (.ldVxK x) s = .next { s.takeKey x k with fresh := fresh } := by
  change (s.releasedKeys = [] ∧ execLdVxK x s = .next s) ∨
    ∃ k ∈ s.releasedKeys, ∃ fresh, execLdVxK x s = .next { s.takeKey x k with fresh := fresh }
  unfold execLdVxK
  split
  · next h => exact .inl ⟨h, rfl⟩
  · next k h => exact .inr ⟨k, by simp [h], _, rfl⟩
  · next k k' ks h =>
    refine .inr ⟨_, ?_, _, rfl⟩
    rw [h]
    have hlt : Config.keyChoice s.fresh % (ks.length + 2) < (k :: k' :: ks).length := Nat.mod_lt _ (Nat.succ_pos _)
    rw [List.getD_eq_getElem _ _ hlt]
    exact List.getElem_mem hlt

/-- Settles O47: a released key's index goes to VX; with no released key the list is empty. -/
theorem keyWaitTakesReleasedKey : Obligations.KeyWaitTakesReleasedKey := by
  intro x s
  obtain ⟨hnone, hexec⟩ | ⟨k, hk, fresh, hexec⟩ := exec_ldVxK_cases x s
  · refine ⟨fun ⟨k, hk⟩ => ?_, fun _ => hexec⟩
    have hmem := (s.mem_releasedKeys k).2 hk
    rw [hnone] at hmem
    exact absurd hmem List.not_mem_nil
  · obtain ⟨hprev, hnow⟩ := (s.mem_releasedKeys k).1 hk
    refine ⟨fun _ => ⟨_, hexec, ⟨k, hprev, hnow, ?_⟩, rfl, fun r hr => s.reg_setReg_other _ hr,
      State.byteAt_congr rfl rfl⟩, fun h => ?_⟩
    · have hx : ({ s.takeKey x k with fresh := fresh } : State).reg x = BitVec.ofNat 8 k.val := s.reg_setReg_same x _
      rw [hx, BitVec.toNat_ofNat]
      omega
    · rw [h k hprev] at hnow
      cases hnow

end Sys2Proof.Proofs
end

section
/-! Memory and index (45_memory_index.md): register ranges, the sums of `idx`, and the block transfers. -/

namespace Sys2Proof.Proofs

open Sys2Proof.Machine Sys2Proof.Claims

/-! ## Writes of `idx` -/

/-- 45_memory_index.md R232. -/
theorem exec_addI (x : Reg) (s : State) :
    exec (.addI x) s = .next (s.setIdx (s.idx + zext8 (s.reg x))).advance := rfl

/-- 45_memory_index.md R233. -/
theorem exec_ldF (x : Reg) (s : State) :
    exec (.ldF x) s = .next (s.setIdx (lowGlyph (lowNibble (s.reg x)))).advance := rfl

/-- 45_memory_index.md R234. -/
theorem exec_ldHf (x : Reg) (s : State) :
    exec (.ldHf x) s = .next (s.setIdx (highGlyph s.params.hiresFontOffset (lowNibble (s.reg x)))).advance := rfl

theorem lowGlyph_toNat (b : Byte) : (lowGlyph (lowNibble b)).toNat = 0x50 + 5 * (b.toNat % 16) := by
  have hbase : fontOffset.toNat = 0x50 := rfl
  rw [lowGlyph, lowNibble_val, BitVec.toNat_add, BitVec.toNat_ofNat, hbase]
  omega

theorem highGlyph_toNat (offset : Word) (b : Byte) :
    (highGlyph offset (lowNibble b)).toNat = (offset.toNat + 10 * (b.toNat % 16)) % 65536 := by
  rw [highGlyph, lowNibble_val, BitVec.toNat_add, BitVec.toNat_ofNat, Nat.add_mod_mod]

/-- Settles O50: each is one write of `idx`; the low glyphs end below 65536, so that sum does not wrap. -/
theorem indexSumsWrap : Obligations.IndexSumsWrap := by
  intro x s
  refine ⟨⟨_, exec_addI x s, ?_, rfl, sameBytes_advance_setIdx s _⟩,
    ⟨_, exec_ldF x s, lowGlyph_toNat _, rfl, sameBytes_advance_setIdx s _⟩,
    ⟨_, exec_ldHf x s, highGlyph_toNat _ _, rfl, sameBytes_advance_setIdx s _⟩⟩
  rw [State.advance_idx, State.setIdx_idx, BitVec.toNat_add, zext8_toNat]

/-- 45_memory_index.md R231. -/
theorem exec_ldlI (w : Word) (s : State) : exec (.ldlI w) s = .next ((s.setIdx w).jump (s.pc + 4)) := rfl

/-- Settles O49: the word F000 at the program counter makes the two bytes after it the literal. -/
theorem longLoadConsumesFourBytes : Obligations.LongLoadConsumesFourBytes := by
  intro s h0 h1
  have hdecode : decode (bytesAtPc s) = .instr (.ldlI (bigEndian (s.byteAt (s.pc + 2)) (s.byteAt (s.pc + 3)))) [] := by
    rw [bytesAtPc, h0, h1]
    rfl
  exact ⟨_, hdecode, bigEndian_toNat _ _, _, exec_ldlI _ s, rfl, State.byteAt_congr rfl rfl⟩

/-! ## Positions of a register range -/

theorem length_regRange (x y : Reg) : (regRange x y).length = rangeSpan x y + 1 := regRange_length x y

/-- 45_memory_index.md R239, R240: the register `i` steps into a range stands at position `i`. -/
theorem regRange_getElem_of_val {x y r : Reg} {i : Nat} (hi : i < (regRange x y).length) (hr : r.val = rangeReg x y i) :
    (regRange x y)[i] = r := Fin.ext ((regRange_getElem x y i hi).trans hr.symm)

/-- Position `r` of the range from V0 is Vr, for every r up to X. -/
theorem rangeReg_zero (x r : Reg) : r.val = rangeReg 0 x r.val := by
  show r.val = if 0 ≤ x.val then 0 + r.val else 0 - r.val
  rw [if_pos (Nat.zero_le _), Nat.zero_add]

theorem length_regRange_le (x y : Reg) : (regRange x y).length ≤ 65536 := by
  rw [regRange_length]
  split <;> omega

/-- A range stays between its ends. -/
theorem not_mem_regRange {x y r : Reg} (h : r < x ∧ r < y ∨ x < r ∧ y < r) : r ∉ regRange x y := by
  intro hr
  obtain ⟨i, hi, rfl⟩ := List.getElem_of_mem hr
  have hval := regRange_getElem x y i hi
  rw [regRange_length] at hi
  simp only [Fin.lt_def, hval] at h
  by_cases hxy : x.val ≤ y.val
  · simp only [if_pos hxy] at h hi
    omega
  · simp only [if_neg hxy] at h hi
    omega

/-! ## Stores -/

section Stores

variable {s : State} (hwf : s.ram.wf s.params)
include hwf

/-- 45_memory_index.md R236: position `i` of a store of registers reads back the register at position `i`. -/
theorem byteAt_storeRegList {rs : List Reg} (hlen : rs.length ≤ 65536) {i : Nat} (hi : i < rs.length) :
    (s.storeRegList rs).byteAt (s.idx + BitVec.ofNat 16 i) = s.reg rs[i] := by
  have hi' : i < (rs.map s.reg).length := by rwa [List.length_map]
  rw [State.storeRegList, s.byteAt_storeBytes_inside _ _ hwf (by rwa [List.length_map]) i hi', List.getElem_map]

/-- 45_memory_index.md R237, R239: a store of a range, at each position. -/
theorem byteAt_storeRange {x y r : Reg} {i : Nat} (hi : i ≤ rangeSpan x y) (hr : r.val = rangeReg x y i) :
    (s.storeRegList (regRange x y)).byteAt (s.idx + BitVec.ofNat 16 i) = s.reg r := by
  have hi' : i < (regRange x y).length := by
    rw [length_regRange]
    exact Nat.lt_succ_of_le hi
  rw [byteAt_storeRegList hwf (length_regRange_le x y) hi', regRange_getElem_of_val hi' hr]

end Stores

theorem sameBytesOutside_storeBytes (s : State) (a : Word) (bs : List Byte) :
    SameBytesOutside s (s.storeBytes a bs) a bs.length := fun b hb => s.byteAt_storeBytes_outside a bs b hb

theorem sameBytesOutside_storeRange (s : State) (x y : Reg) :
    SameBytesOutside s (s.storeRegList (regRange x y)) s.idx (rangeSpan x y + 1) := by
  have h := sameBytesOutside_storeBytes s s.idx ((regRange x y).map s.reg)
  rwa [List.length_map, length_regRange] at h

/-- 45_memory_index.md R239. -/
theorem exec_save (x y : Reg) (s : State) : exec (.save x y) s = .next (s.storeRegList (regRange x y)).advance := rfl

/-- Settles O54: SAVE stores the range from VX to VY. -/
theorem saveRangeAtIndex : Obligations.SaveRangeAtIndex := by
  intro x y s hwf
  exact ⟨_, exec_save x y s, fun i r hi hr => byteAt_storeRange hwf hi hr, sameBytesOutside_storeRange s x y, rfl⟩

/-- 45_memory_index.md R237. -/
theorem exec_storeRegs (x : Reg) (s : State) : exec (.storeRegs x) s = .next
    { s.storeRegList (regRange 0 x) with
      idx := if s.mode = .schip then s.idx else s.idx + BitVec.ofNat 16 (x.val + 1), pc := s.pc + 2 } := by
  change Host.Outcome.next ((s.storeRegList (regRange 0 x)).memInc x).advance = _
  rw [State.memInc_eq]
  rfl

/-- Settles O52: LD [I],Vx stores the range from V0 to VX. -/
theorem storeRegistersAtIndex : Obligations.StoreRegistersAtIndex := by
  intro x s hwf
  exact ⟨_, exec_storeRegs x s, fun r hr => byteAt_storeRange hwf hr (rangeReg_zero x r),
    sameBytesOutside_storeRange s 0 x, rfl, rfl⟩

/-- 45_memory_index.md R235. -/
theorem exec_ldB (x : Reg) (s : State) :
    exec (.ldB x) s = .next (s.storeBytes s.idx (bcdDigits (s.reg x))).advance := rfl

theorem bcdDigits_toNat (a : Byte) :
    (bcdDigits a).map BitVec.toNat = [a.toNat / 100, a.toNat / 10 % 10, a.toNat % 10] := by
  have ha := a.isLt
  simp only [bcdDigits, List.map_cons, List.map_nil, BitVec.toNat_ofNat, List.cons.injEq, and_true]
  omega

/-- Settles O51: the bytes stored are the three digits. -/
theorem bcdStoresThreeDigits : Obligations.BcdStoresThreeDigits := by
  intro x s hwf
  have hlen : (bcdDigits (s.reg x)).length ≤ 65536 := by simp [bcdDigits]
  have hdigit (i : Nat) (hi : i < 3) :
      ((s.storeBytes s.idx (bcdDigits (s.reg x))).byteAt (s.idx + BitVec.ofNat 16 i)).toNat =
        [(s.reg x).toNat / 100, (s.reg x).toNat / 10 % 10, (s.reg x).toNat % 10][i] := by
    rw [s.byteAt_storeBytes_inside s.idx (bcdDigits (s.reg x)) hwf hlen i hi]
    simp only [← bcdDigits_toNat, List.getElem_map]
    rfl
  have hfirst := hdigit 0 (by omega)
  rw [BitVec.add_zero] at hfirst
  exact ⟨_, exec_ldB x s, hfirst, hdigit 1 (by omega), hdigit 2 (by omega),
    sameBytesOutside_storeBytes s s.idx (bcdDigits (s.reg x)), rfl⟩

/-! ## Loads -/

/-- 45_memory_index.md R240. -/
theorem exec_load (x y : Reg) (s : State) : exec (.load x y) s = .next
    { s with v := (s.loadRegList (regRange x y)).v, pc := s.pc + 2 } := by
  change Host.Outcome.next (s.loadRegList (regRange x y)).advance = _
  rw [State.loadRegList, State.loadRegsFrom_eq]
  rfl

/-- 45_memory_index.md R238, R240: a load of a range, at each position. -/
theorem reg_loadRange (s : State) {x y r : Reg} {i : Nat} (hi : i ≤ rangeSpan x y) (hr : r.val = rangeReg x y i) :
    (s.loadRegList (regRange x y)).reg r = s.byteAt (s.idx + BitVec.ofNat 16 i) := by
  have hi' : i < (regRange x y).length := by
    rw [length_regRange]
    exact Nat.lt_succ_of_le hi
  rw [State.loadRegList, ← regRange_getElem_of_val hi' hr, State.reg_loadRegsFrom _ _ _ (regRange_nodup x y)]

theorem reg_loadRange_outside (s : State) {x y r : Reg} (h : r < x ∧ r < y ∨ x < r ∧ y < r) :
    (s.loadRegList (regRange x y)).reg r = s.reg r :=
  s.reg_loadRegsFrom_other _ _ (not_mem_regRange h)

/-- Settles O55: LOAD loads the range from VX to VY. -/
theorem loadRangeFromIndex : Obligations.LoadRangeFromIndex := by
  intro x y s
  exact ⟨_, exec_load x y s, fun i r hi hr => reg_loadRange s hi hr, fun r h => reg_loadRange_outside s h, rfl,
    State.byteAt_congr rfl rfl⟩

/-- 45_memory_index.md R238. -/
theorem exec_loadRegs (x : Reg) (s : State) : exec (.loadRegs x) s = .next
    { s with
      v := (s.loadRegList (regRange 0 x)).v
      idx := if s.mode = .schip then s.idx else s.idx + BitVec.ofNat 16 (x.val + 1), pc := s.pc + 2 } := by
  change Host.Outcome.next ((s.loadRegList (regRange 0 x)).memInc x).advance = _
  rw [State.memInc_eq, State.loadRegList, State.loadRegsFrom_eq]
  rfl

/-- Settles O53: LD Vx,[I] loads the range from V0 to VX. -/
theorem loadRegistersFromIndex : Obligations.LoadRegistersFromIndex := by
  intro x s
  exact ⟨_, exec_loadRegs x s, fun r hr => reg_loadRange s hr (rangeReg_zero x r),
    fun r hr => reg_loadRange_outside s (.inr ⟨lt_of_le_of_lt (Fin.zero_le x) hr, hr⟩), rfl, rfl,
    State.byteAt_congr rfl rfl⟩

end Sys2Proof.Proofs
end

section
/-! Flag store (47_storage.md): the storage round trip. -/

namespace Sys2Proof.Proofs

open Sys2Proof.Machine Sys2Proof.Claims

/-- Settles O60: a load reaches no further than the save of at least as many flags, so it returns saved bytes only. -/
theorem flagLoadReturnsSaved : Obligations.FlagLoadReturnsSaved := by
  intro x y s t u w hmode hsave hum hrpl hyx hload i hi
  obtain ⟨t', ht', hsaved, -⟩ := (flagTransfersReachModeLimit x s).2.1 hmode
  obtain ⟨w', hw', hloaded, -⟩ := (flagTransfersReachModeLimit y u).2.2 (by rwa [hum])
  cases hsave.symm.trans ht'
  cases hload.symm.trans hw'
  have hreach : lastFlag s.mode y ≤ lastFlag s.mode x := min_le_min_right _ hyx
  rw [hloaded, hum, if_pos hi, hrpl, hsaved, if_pos (hi.trans hreach)]

end Sys2Proof.Proofs
end

section
/-! RAM, reset and launch (20_memory.md, 10_state.md section 9, 70_reset_and_hazards.md). -/

namespace Sys2Proof.Proofs

open Sys2Proof.Machine Sys2Proof.Claims

/-! ## The canonical form of RAM -/

/-- An address without an entry reads as its reset contents. -/
theorem read_of_absent {p : Params} {m : Memory} {a : Nat} (h : ∀ c ∈ m, c.1 ≠ a) : m.read p a = initialByte p a := by
  induction m with
  | nil => rfl
  | cons c rest ih =>
    rw [Memory.read, if_neg (h c List.mem_cons_self)]
    exact ih fun d hd => h d (List.mem_cons_of_mem _ hd)

/-- In canonical form an entry is what its address reads as. -/
theorem read_of_mem {p : Params} {m : Memory} (hm : m.Pairwise fun c d => c.1 < d.1) {c : Host.Cell} (hc : c ∈ m) :
    m.read p c.1 = c.2 := by
  induction m with
  | nil => cases hc
  | cons d rest ih =>
    obtain ⟨hfirst, hrest⟩ := List.pairwise_cons.1 hm
    rw [Memory.read]
    cases hc with
    | head => exact if_pos rfl
    | tail _ hc =>
      rw [if_neg (Nat.ne_of_lt (hfirst c hc))]
      exact ih hrest hc

/-- In canonical form the entries are the bytes that read differently from the reset contents. -/
theorem mem_iff_read {p : Params} {m : Memory} (hm : m.wf p) (c : Host.Cell) :
    c ∈ m ↔ c.1 < 65536 ∧ m.read p c.1 = c.2 ∧ c.2 ≠ initialByte p c.1 := by
  constructor
  · intro hc
    exact ⟨(hm.2 c hc).1, read_of_mem hm.1 hc, (hm.2 c hc).2⟩
  · rintro ⟨-, hread, hne⟩
    by_contra hc
    refine hne (hread.symm.trans (read_of_absent fun d hd hda => hc ?_))
    have hcd : c = d := Prod.ext hda.symm (by rw [← hread, ← hda, read_of_mem hm.1 hd])
    rwa [hcd]

/-- Settles O23: two canonical memories that read alike have the same entries, both in rising order. -/
theorem canonicalMemoryIsExtensional : Obligations.CanonicalMemoryIsExtensional := by
  intro p m n hm hn hread
  have hmem (c : Host.Cell) : c ∈ m ↔ c ∈ n := by
    rw [mem_iff_read hm, mem_iff_read hn]
    exact and_congr_right fun hc => by rw [hread c.1 hc]
  exact hm.1.eq_of_mem_iff hn.1 hmem

/-! ## Reset -/

theorem defaultParams_legal : defaultParams.Legal := by decide

/-- 20_memory.md section 4: the reset state meets the invariant under legal parameters. -/
theorem resetWith_inv {p : Params} (hp : p.Legal) (m : Mode) (r : Vector Byte 16) : (State.resetWith p m r).Inv where
  paramsLegal := hp
  ramWf := Memory.wf_nil
  slotZero := rfl
  faultPrecise := trivial

/-- Settles O16: RAM lists nothing, the stack is zero and no fault is recorded; the default offset is legal. -/
theorem resetMeetsInvariant : Obligations.ResetMeetsInvariant := by
  intro p m r
  exact ⟨fun hp => resetWith_inv hp m r, resetWith_inv defaultParams_legal _ _⟩

/-- A sum of addresses that does not wrap. -/
theorem toNat_addr_add {a : Word} {i : Nat} (h : a.toNat + i < 65536) :
    (a + BitVec.ofNat 16 i).toNat = a.toNat + i := by
  rw [BitVec.toNat_add, BitVec.toNat_ofNat]
  omega

section ResetContents

variable (p : Params) (m : Mode) (r : Vector Byte 16)

theorem byteAt_resetWith (a : Word) : (State.resetWith p m r).byteAt a = initialByte p a.toNat := rfl

theorem plane_resetWith (k : Fin 2) : (State.resetWith p m r).plane k = Plane.clear := by
  unfold State.plane
  split <;> rfl

/-- 20_memory.md R72. -/
theorem byteAt_resetWith_fontLo (i : Fin 80) :
    (State.resetWith p m r).byteAt (0x0050 + BitVec.ofNat 16 i.val) = p.fontLo[i.val] := by
  have hbase : (0x0050 : Word).toNat = 0x0050 := rfl
  rw [byteAt_resetWith, toNat_addr_add (by omega), hbase, initialByte_fontLo i.val i.isLt]

/-- 20_memory.md R71, R73: under legal parameters the high font ends below 65536 and beside the low one. -/
theorem byteAt_resetWith_fontHi (hp : p.Legal) (i : Nat) (hi : i < 100) :
    (State.resetWith p m r).byteAt (p.hiresFontOffset + BitVec.ofNat 16 i) = Config.fontHi i := by
  have hend := hp.1
  rw [byteAt_resetWith, toNat_addr_add (by omega), initialByte_fontHi hp i hi]

end ResetContents

/-- Settles O17: the fields of the reset state, and RAM as the reset contents of each address. -/
theorem resetLeavesDocumentedState : Obligations.ResetLeavesDocumentedState := by
  intro p m r s hs
  subst hs
  have hplanes (k : Fin 2) (x y : Nat) : cellOf ((State.resetWith p m r).plane k) x y = false := by
    rw [plane_resetWith, cellOf_clear]
  exact ⟨fun x => Vector.getElem_replicate x.isLt, rfl, rfl, rfl, fun i => Vector.getElem_replicate i.isLt, hplanes, rfl,
    rfl, rfl, rfl, rfl, rfl, fun i => Vector.getElem_replicate i.isLt, rfl, rfl,
    fun i => ⟨Vector.getElem_replicate i.isLt, Vector.getElem_replicate i.isLt⟩, rfl, rfl, rfl, rfl, rfl, rfl,
    byteAt_resetWith_fontLo p m r, byteAt_resetWith_fontHi p m r, fun a hlo hhi => initialByte_zero a.toNat hlo hhi, rfl,
    defaultParams_legal⟩

/-! ## Launch and the quirk table -/

theorem launch_of_le (p : Params) (m : Mode) (r : Vector Byte 16) {rom : List Byte} (h : rom.length ≤ 65024) :
    launch p m r rom = some ((State.resetWith p m r).storeBytes loadAddress rom) := if_pos h

theorem launch_of_gt (p : Params) (m : Mode) (r : Vector Byte 16) {rom : List Byte} (h : 65024 < rom.length) :
    launch p m r rom = none := if_neg (Nat.not_le.2 h)

/-- Settles O18: program load is one store of the ROM's bytes over the canonical RAM of reset. -/
theorem launchPlacesProgram : Obligations.LaunchPlacesProgram := by
  intro p m r rom
  refine ⟨fun h => ⟨_, launch_of_le p m r h, rfl, rfl, fun i hi => ?_, sameBytesOutside_storeBytes _ _ _⟩,
    fun h => launch_of_gt p m r h⟩
  exact State.byteAt_storeBytes_inside _ _ _ Memory.wf_nil (by omega) i hi

/-- Settles O19: each of the 21 entries of the table, by evaluation. -/
theorem quirkSignalsFollowTable : Obligations.QuirkSignalsFollowTable := by
  unfold Obligations.QuirkSignalsFollowTable
  decide

end Sys2Proof.Proofs
end

section
/-! Frames over all instructions (10_state.md): who writes each field, which instructions fault, and which keep VF. -/

namespace Sys2Proof.Proofs

open Sys2Proof.Machine Sys2Proof.Claims

/-! ## Who writes each field -/

/-- The instructions that may write registers (10_state.md R20). -/
def writesRegs : Instr → Bool
  | .load _ _ | .ldImm _ _ | .addImm _ _ | .ldReg _ _ | .orReg _ _ | .andReg _ _ | .xorReg _ _ | .addReg _ _ | .sub _ _
  | .shr _ _ | .subn _ _ | .shl _ _ | .rnd _ _ | .drw _ _ _ | .ldVxDt _ | .ldVxK _ | .loadRegs _ | .ldVxR _ => true
  | _ => false

/-- What `i` leaves unchanged from `s` to `t`: each field but for its named writers (10_state.md R25 to R39). -/
structure Kept (i : Instr) (s t : State) : Prop where
  mode : t.mode = s.mode
  params : t.params = s.params
  cycleCounter : t.cycleCounter = s.cycleCounter
  audioOn : t.audioOn = s.audioOn
  keys : t.keys = s.keys
  prevKeys : t.prevKeys = s.prevKeys
  paused : t.paused = s.paused
  hostError : t.hostError = s.hostError
  inputs : t.inputs = s.inputs
  planeMask : (∀ x, i ≠ .plane x) → t.planeMask = s.planeMask
  hires : i ≠ .low → i ≠ .high → t.hires = s.hires
  delayTimer : (∀ x, i ≠ .ldDtVx x) → t.delayTimer = s.delayTimer
  soundTimer : (∀ x, i ≠ .ldStVx x) → t.soundTimer = s.soundTimer
  audioPattern : i ≠ .audio → t.audioPattern = s.audioPattern
  pitch : (∀ x, i ≠ .pitch x) → t.pitch = s.pitch
  rpl : (∀ x, i ≠ .ldRVx x) → t.rpl = s.rpl
  finished : i ≠ .exit → t.finished = s.finished
  stack : i ≠ .ret → (∀ nnn, i ≠ .call nnn) → t.sp = s.sp ∧ t.stack = s.stack ∧ t.fault = s.fault
  planes : (∀ n, i ≠ .scd n) → (∀ n, i ≠ .scu n) → i ≠ .cls → i ≠ .scr → i ≠ .scl → (∀ x y n, i ≠ .drw x y n) →
    t.plane0 = s.plane0 ∧ t.plane1 = s.plane1 ∧ t.dirty = s.dirty
  idx : (∀ nnn, i ≠ .ldI nnn) → (∀ w, i ≠ .ldlI w) → (∀ x, i ≠ .addI x) → (∀ x, i ≠ .ldF x) → (∀ x, i ≠ .ldHf x) →
    (∀ x, i ≠ .storeRegs x) → (∀ x, i ≠ .loadRegs x) → t.idx = s.idx
  ram : (∀ x y, i ≠ .save x y) → (∀ x, i ≠ .ldB x) → (∀ x, i ≠ .storeRegs x) → t.ram = s.ram
  regs : writesRegs i = false → t.v = s.v

/-- Each shape of an instruction's effect leaves the fields that are not its own. -/
theorem kept_of_exec {i : Instr} {s t : State} (h : exec i s = .next t) : Kept i s t := by
  replace h := exec_shape h
  cases i with
  | scd n | scu n | cls | scr | scl =>
    obtain ⟨p0, p1, d, pc, rfl⟩ := h
    constructor <;> simp
  | ret => obtain ⟨-, rfl⟩ | ⟨pc, k, rfl⟩ := h <;> constructor <;> simp
  | call nnn => obtain ⟨-, rfl⟩ | ⟨pc, k, w, -, rfl⟩ := h <;> constructor <;> simp
  | exit | jp nnn | jpV0 nnn | seImm x nn | sneImm x nn | seReg x y | sneReg x y | skp x | sknp x =>
    obtain ⟨pc, rfl⟩ := h
    constructor <;> simp
  | low | high | save x y | ldB x | ldI nnn | ldlI w | addI x | ldF x | ldHf x | ldDtVx x | ldStVx x =>
    obtain ⟨b, pc, rfl⟩ := h
    constructor <;> simp
  | load x y | ldImm x nn | addImm x nn | ldReg x y | orReg x y | andReg x y | xorReg x y | addReg x y | sub x y
  | shr x y | subn x y | shl x y | ldVxDt x | ldVxR x =>
    obtain ⟨v, pc, rfl⟩ := h
    constructor <;> simp [writesRegs]
  | audio | plane x | pitch x | storeRegs x =>
    obtain ⟨b, c, pc, rfl⟩ := h
    constructor <;> simp
  | rnd x nn | ldVxK x | loadRegs x =>
    obtain ⟨v, b, pc, rfl⟩ := h
    constructor <;> simp [writesRegs]
  | drw x y n =>
    obtain ⟨v, p0, p1, d, pc, rfl⟩ := h
    constructor <;> simp [writesRegs]
  | ldRVx x =>
    obtain ⟨r, ev, pc, rfl, -⟩ := h
    constructor <;> simp

/-- Settles O21: bytes of RAM are as before where RAM is. -/
theorem onlyDocumentedWriters : Obligations.OnlyDocumentedWriters := by
  intro i s t h
  have k := kept_of_exec h
  exact ⟨⟨k.mode, k.params, k.cycleCounter, k.audioOn, k.keys, k.prevKeys, k.paused, k.hostError, k.inputs⟩, k.planeMask,
    k.hires, k.delayTimer, k.soundTimer, k.audioPattern, k.pitch, k.rpl, k.finished, k.stack, k.planes, k.idx,
    fun hsave hldB hstore => State.byteAt_congr (k.ram hsave hldB hstore) k.params⟩

section Kept

variable {i : Instr} {s t : State} (h : exec i s = .next t)
include h

/-- A set `finished` stays set (10_state.md R37). -/
theorem finished_of_exec (hs : s.finished = true) : t.finished = true := by
  by_cases hi : i = .exit
  · subst hi
    obtain ⟨pc, rfl⟩ := exec_shape h
    rfl
  · exact ((kept_of_exec h).finished hi).trans hs

/-- In CHIP8 mode no instruction writes the flag store (47_storage.md R268). -/
theorem rpl_of_exec (hmode : s.mode = .chip8) : t.rpl = s.rpl := by
  by_cases hi : ∃ x, i = .ldRVx x
  · obtain ⟨x, rfl⟩ := hi
    cases h.symm.trans (exec_ldRVx_of_chip8 x hmode)
    rfl
  · exact (kept_of_exec h).rpl fun x hx => hi ⟨x, hx⟩

/-- Stack slot 0 is never written: CALL writes the slot above the stack pointer (10_state.md R26). -/
theorem slotZero_of_exec : t.stack[0] = s.stack[0] := by
  have hshape := exec_shape h
  cases i with
  | ret => obtain ⟨-, rfl⟩ | ⟨pc, k, rfl⟩ := hshape <;> rfl
  | call nnn =>
    obtain ⟨-, rfl⟩ | ⟨pc, k, w, hk, rfl⟩ := hshape
    · rfl
    · exact Vector.getElem_set_ne k.isLt (by decide) fun e => hk (Fin.ext e)
  | _ =>
    obtain ⟨-, hstack, -⟩ := (kept_of_exec h).stack nofun nofun
    rw [hstack]

/-- RAM is left alone or written by one block from `idx` on (45_memory_index.md R235 to R239). -/
theorem ram_of_exec : t.ram = s.ram ∨ ∃ bs, t.ram = s.ram.writeBlock s.params s.idx bs := by
  have hshape := exec_shape h
  cases i with
  | save x y | ldB x =>
    obtain ⟨bs, pc, rfl⟩ := hshape
    exact .inr ⟨bs, rfl⟩
  | storeRegs x =>
    obtain ⟨bs, w, pc, rfl⟩ := hshape
    exact .inr ⟨bs, rfl⟩
  | _ => exact .inl ((kept_of_exec h).ram nofun nofun nofun)

end Kept

/-! ## Faults -/

/-- Settles O20: only RET and CALL write the fault, and each does so only at its bound. -/
theorem onlyStackFaultsFault : Obligations.OnlyStackFaultsFault := by
  intro i s t h hs ht
  have hkeeps (e : t.fault = s.fault) : False := ht (e.trans hs)
  have hshape := exec_shape h
  cases i with
  | ret =>
    obtain ⟨hsp, rfl⟩ | ⟨pc, k, rfl⟩ := hshape
    · exact .inr ⟨rfl, hsp, rfl⟩
    · exact (hkeeps rfl).elim
  | call nnn =>
    obtain ⟨hsp, rfl⟩ | ⟨pc, k, w, -, rfl⟩ := hshape
    · exact .inl ⟨nnn, rfl, hsp, rfl⟩
    · exact (hkeeps rfl).elim
  | _ =>
    obtain ⟨-, -, hfault⟩ := (kept_of_exec h).stack nofun nofun
    exact (hkeeps hfault).elim

/-! ## VF -/

theorem lt_vf_of_ne {x : Reg} (h : x ≠ 15) : x < 15 := lt_of_le_of_ne (Fin.le_last x) h

/-- The last flag within reach lies below VF unless it is VF's, in XOCHIP mode (47_storage.md R268). -/
theorem lastFlag_lt {m : Mode} {x : Reg} (h : (x == 15 && m == .xochip) = false) (hm : m ≠ .chip8) :
    lastFlag m x < 15 := by
  unfold lastFlag
  cases m with
  | chip8 => exact absurd rfl hm
  | schip => exact lt_of_le_of_lt (min_le_right ..) (by decide)
  | xochip =>
    have hx : x ≠ 15 := by simpa using h
    exact lt_of_le_of_lt (min_le_left ..) (lt_vf_of_ne hx)

/-- Settles O22: an instruction keeps VF if it writes no register, or only registers below VF. -/
theorem vfKeptByNonWriters : Obligations.VfKeptByNonWriters := by
  intro i s t h hvf
  cases i with
  | ldImm x nn | addImm x nn | ldReg x y | rnd x nn | ldVxDt x =>
    have hx : x ≠ 15 := by simpa [mayWriteVf] using hvf
    cases h
    exact s.reg_setReg_other _ hx.symm
  | ldVxK x =>
    have hx : x ≠ 15 := by simpa [mayWriteVf] using hvf
    obtain ⟨-, hexec⟩ | ⟨k, -, fresh, hexec⟩ := exec_ldVxK_cases x s
    · cases h.symm.trans hexec
      rfl
    · cases h.symm.trans hexec
      exact s.reg_setReg_other _ hx.symm
  | orReg x y | andReg x y | xorReg x y =>
    obtain ⟨hx, hmode⟩ : x ≠ 15 ∧ s.mode ≠ .chip8 := by simpa [mayWriteVf] using hvf
    cases h
    rw [reg_advance, setLogic_eq_ite, if_neg hmode]
    exact s.reg_setReg_other _ hx.symm
  | load x y =>
    obtain ⟨hx, hy⟩ : x ≠ 15 ∧ y ≠ 15 := by simpa [mayWriteVf] using hvf
    cases (exec_load x y s).symm.trans h
    exact reg_loadRange_outside s (.inr ⟨lt_vf_of_ne hx, lt_vf_of_ne hy⟩)
  | loadRegs x =>
    have hx : x ≠ 15 := by simpa [mayWriteVf] using hvf
    cases (exec_loadRegs x s).symm.trans h
    exact reg_loadRange_outside s (.inr ⟨by decide, lt_vf_of_ne hx⟩)
  | ldVxR x =>
    by_cases hmode : s.mode = .chip8
    · cases (exec_ldVxR_of_chip8 x hmode).symm.trans h
      rfl
    · obtain ⟨t', ht', hloaded, -⟩ := (flagTransfersReachModeLimit x s).2.2 hmode
      cases h.symm.trans ht'
      exact (hloaded 15).trans (if_neg (Nat.not_le.2 (lastFlag_lt hvf hmode)))
  | addReg x y | sub x y | subn x y | shr x y | shl x y | drw x y n => cases hvf
  | _ => exact State.reg_congr ((kept_of_exec h).regs rfl) 15

end Sys2Proof.Proofs
end

section
/-! The step and the iteration (40_control_flow.md section 1, 60_exceptions.md): halted iterations, the step on the sampled
state, the rest of the iteration, the tick, and the invariant. -/

namespace Sys2Proof.Proofs

open Sys2Proof.Machine Sys2Proof.Claims

/-! ## The sampled state -/

theorem sample_eq_sampled (s : State) (inp : Input) : s.sample inp = sampled s inp := by
  unfold State.sample State.dropInput sampled
  cases hin : s.inputs <;> simp

theorem fetchBytes_sampled (s : State) (inp : Input) : (sampled s inp).fetchBytes = bytesAtPc s :=
  (sampled s inp).fetchBytes_eq

theorem fault_of_not_ended {s : State} (h : s.ended = false) : s.fault = none := ((ended_eq_false s).1 h).1

theorem step_of_finished {s : State} (h : s.finished = true) : step s = .fault .runEnded :=
  step_of_ended (by simp [State.ended, h])

/-- 60_exceptions.md R300 step 3, R303. -/
theorem step_of_halted {s : State} (he : s.ended = false) (hh : Halted s s.nextInput) :
    step s = .next (sampled s s.nextInput) := by
  obtain ⟨hpaused, hfinished⟩ := hh
  rw [step_of_not_ended he, iterateSampled, sample_eq_sampled]
  exact if_pos ⟨hpaused, by rw [show (sampled s s.nextInput).finished = false from hfinished]; exact Bool.false_ne_true⟩

/-- 60_exceptions.md R300 steps 4 to 6: perform on the sampled state, count, and end the iteration. -/
theorem step_of_performed {s t : State} (he : s.ended = false) (hh : ¬ Halted s s.nextInput)
    (hp : perform (decode (bytesAtPc s)) (sampled s s.nextInput) = .next t) :
    step s = .next (t.countCycle.afterStep s.nextInput) := by
  have hnot : ¬ ((sampled s s.nextInput).paused = true ∧ ¬ (sampled s s.nextInput).finished = true) :=
    fun ⟨hpaused, hfinished⟩ => hh ⟨hpaused, Bool.eq_false_of_not_eq_true hfinished⟩
  rw [step_of_not_ended he, iterateSampled, sample_eq_sampled, if_neg hnot, coreStep, fetchBytes_sampled, hp]
  rfl

/-- What an iteration can do, in the terms of the statements. -/
theorem step_cases {s t : State} (h : step s = .next t) :
    s.ended = false ∧ (Halted s s.nextInput ∧ t = sampled s s.nextInput ∨
      ¬ Halted s s.nextInput ∧ ∃ u, perform (decode (bytesAtPc s)) (sampled s s.nextInput) = .next u ∧
        t = u.countCycle.afterStep s.nextInput) := by
  obtain ⟨he, hcases⟩ := step_next_cases h
  rw [sample_eq_sampled, fetchBytes_sampled] at hcases
  exact ⟨he, hcases.imp (fun ⟨hpaused, hfinished, ht⟩ => ⟨⟨hpaused, hfinished⟩, ht⟩) id⟩

/-! ## Counting -/

theorem countCycle_of_none {s : State} (h : s.fault = none) :
    s.countCycle = { s with cycleCounter := s.cycleCounter + 1 } := if_neg (by simp [h])

theorem countCycle_of_fault {s : State} (h : s.fault ≠ none) : s.countCycle = s :=
  if_pos (Option.isSome_iff_ne_none.2 h)

/-! ## The rest of an iteration -/

theorem afterStep_of_fault {s : State} (inp : Input) (h : s.fault ≠ none) : s.afterStep inp = s :=
  if_pos (Option.isSome_iff_ne_none.2 h)

theorem afterStep_of_none {s : State} (inp : Input) (h : s.fault = none) :
    s.afterStep inp = if (s.reportStorage inp).finished then s.reportStorage inp else
      if inp.tickDue then (s.reportStorage inp).tick inp.hostError else s.reportStorage inp := if_neg (by simp [h])

theorem finished_reportStorage (s : State) (inp : Input) : (s.reportStorage inp).finished = s.finished := by
  obtain ⟨_, _, _, _, _, _, h⟩ := s.reportStorage_only inp
  rw [h]

/-- The report adds to the events only. -/
theorem reportStorage_eq (s : State) (inp : Input) :
    s.reportStorage inp = { s with events := (s.reportStorage inp).events } := by
  unfold State.reportStorage
  split <;> rfl

/-- 60_exceptions.md R305: a finished run ends before any tick. -/
theorem afterStep_of_finished {s : State} (inp : Input) (hfault : s.fault = none) (h : s.finished = true) :
    s.afterStep inp = s.reportStorage inp := by
  rw [afterStep_of_none inp hfault, finished_reportStorage, h, if_pos rfl]

/-- An unfinished one goes on to the tick if that is due. -/
theorem afterStep_of_unfinished {s : State} (inp : Input) (hfault : s.fault = none) (h : s.finished = false) :
    s.afterStep inp = if inp.tickDue then (s.reportStorage inp).tick inp.hostError else s.reportStorage inp := by
  rw [afterStep_of_none inp hfault, finished_reportStorage, h, if_neg Bool.false_ne_true]

theorem cycleCounter_afterStep (s : State) (inp : Input) : (s.afterStep inp).cycleCounter = s.cycleCounter := by
  obtain ⟨_, _, _, _, _, _, h⟩ := s.afterStep_only inp
  rw [h]

/-- A performed step without a fault is counted before the iteration ends. -/
theorem step_of_unfaulted {s t : State} (he : s.ended = false) (hh : ¬ Halted s s.nextInput)
    (hp : perform (decode (bytesAtPc s)) (sampled s s.nextInput) = .next t) (hfault : t.fault = none) :
    step s = .next (State.afterStep { t with cycleCounter := t.cycleCounter + 1 } s.nextInput) := by
  rw [step_of_performed he hh hp, countCycle_of_none hfault]

/-- 60_exceptions.md R304, R305: the last step is counted and reported, and no tick follows. -/
theorem step_of_last {s t : State} (he : s.ended = false) (hh : ¬ Halted s s.nextInput)
    (hp : perform (decode (bytesAtPc s)) (sampled s s.nextInput) = .next t) (hfault : t.fault = none)
    (hfinished : t.finished = true) :
    step s = .next (State.reportStorage { t with cycleCounter := t.cycleCounter + 1 } s.nextInput) :=
  (step_of_unfaulted he hh hp hfault).trans (congrArg _ (afterStep_of_finished s.nextInput hfault hfinished))

/-! ## The statements about the iteration -/

/-- Settles O5: the decoded instruction is what the step performs. -/
theorem stepRunsDecodedInstruction : Obligations.StepRunsDecodedInstruction := by
  intro s i rest he hh hdecode
  obtain ⟨t, ht⟩ := exec_total i (sampled s s.nextInput)
  have hperform : perform (decode (bytesAtPc s)) (sampled s s.nextInput) = .next t := by
    rw [hdecode]
    exact ht
  rw [step_of_performed he hh hperform, ht]
  rfl

/-- Settles O6: an unknown word only warns and advances, so it is counted as any step without a fault. -/
theorem unknownWordIsTwoByteNoOp : Obligations.UnknownWordIsTwoByteNoOp := by
  intro s op rest he hh hdecode
  have hperform : perform (decode (bytesAtPc s)) (sampled s s.nextInput) =
      .next ((sampled s s.nextInput).emit (.warn (.unknownOpcode op))).advance := by
    rw [hdecode]
    rfl
  have hfault : s.fault = none := fault_of_not_ended he
  exact step_of_unfaulted he hh hperform hfault

/-- Settles O7: a halted iteration ends with the sample. -/
theorem pausedIterationOnlySamples : Obligations.PausedIterationOnlySamples := fun _ he hh => step_of_halted he hh

/-- Settles O9: each end of a run is `ended`; in a running state an iteration is halted or performs what is decoded. -/
theorem stepStopsExactlyWhenRunEnded : Obligations.StepStopsExactlyWhenRunEnded := by
  intro s
  constructor
  · intro h
    refine step_of_ended (Bool.eq_true_of_not_eq_false fun he => ?_)
    obtain ⟨hfault, hfinished, hhost⟩ := (ended_eq_false s).1 he
    simp [hfault, hfinished, hhost] at h
  · intro hfault hfinished hhost
    have he := (ended_eq_false s).2 ⟨hfault, hfinished, hhost⟩
    by_cases hh : Halted s s.nextInput
    · exact ⟨_, step_of_halted he hh⟩
    · obtain ⟨t, ht⟩ := perform_total (decode (bytesAtPc s)) (sampled s s.nextInput)
      exact ⟨_, step_of_performed he hh ht⟩

/-- Settles O8: with the quit edge `finished` is set before the instruction and stays set, so the iteration ends with the
counted step and the host's report. -/
theorem quitRunsOneMoreInstruction : Obligations.QuitRunsOneMoreInstruction := by
  intro s i rest t he hquit hdecode hexec hfault
  have hsampled : (sampled s s.nextInput).finished = true := by
    show (s.finished || s.nextInput.quitEdge) = true
    rw [hquit, Bool.or_true]
  have hh : ¬ Halted s s.nextInput := fun h => Bool.false_ne_true (h.2.symm.trans hsampled)
  have hfinished : t.finished = true := finished_of_exec hexec hsampled
  have hperform : perform (decode (bytesAtPc s)) (sampled s s.nextInput) = .next t := by
    rw [hdecode]
    exact hexec
  have hstep := step_of_last he hh hperform hfault hfinished
  rw [reportStorage_eq] at hstep
  exact ⟨_, hstep, rfl, hfinished, rfl, rfl, rfl, rfl, rfl, step_of_finished hfinished⟩

/-- 40_control_flow.md R130. -/
theorem exec_exit (s : State) : exec .exit s = .next { s with finished := true }.advance := rfl

/-- Settles O28: EXIT sets `finished` and emits nothing, so the iteration ends with the counted step itself. -/
theorem exitFinishesRun : Obligations.ExitFinishesRun := by
  intro s
  refine ⟨⟨_, exec_exit s, rfl, State.byteAt_congr rfl rfl⟩, fun rest he hh hdecode => ?_⟩
  have hperform : perform (decode (bytesAtPc s)) (sampled s s.nextInput) =
      .next (State.advance { sampled s s.nextInput with finished := true }) := by
    rw [hdecode]
    exact exec_exit _
  have hfault : s.fault = none := fault_of_not_ended he
  have hstep := step_of_last he hh hperform hfault rfl
  rw [State.reportStorage_of_not fun ⟨_, bytes, hmem⟩ => absurd hmem List.not_mem_nil] at hstep
  exact ⟨_, hstep, rfl, step_of_finished rfl⟩

/-! ## The tick -/

theorem countDown_toNat (b : Byte) : (countDown b).toNat = b.toNat - 1 := by
  unfold countDown
  split
  · next h => rw [h]; rfl
  · next h =>
    have hb : b.toNat ≠ 0 := fun e => h (BitVec.eq_of_toNat_eq e)
    rw [BitVec.toNat_sub]
    have hone : (1 : Byte).toNat = 1 := rfl
    have hlt := b.isLt
    omega

/-- Part 1 of the tick, as one update. -/
theorem drawFrame_eq (s : State) : s.drawFrame =
    { s with dirty := false, events := s.events ++ (if s.dirty then [.frame s.composite] else []) } := by
  unfold State.drawFrame
  split
  · rfl
  · next hd => rw [List.append_nil, ← Bool.eq_false_of_not_eq_true hd]

/-- 60_exceptions.md R302: a tick without a failing call. -/
theorem tick_none (s : State) : s.tick none =
    { s with
      dirty := false, delayTimer := countDown s.delayTimer, audioOn := decide (s.soundTimer ≠ 0)
      soundTimer := countDown s.soundTimer, events := s.events ++ (if s.dirty then [.frame s.composite] else []) } := by
  have h : s.tick none = State.soundTick { s.drawFrame with delayTimer := countDown s.drawFrame.delayTimer } := by
    simp [State.tick]
  rw [h, drawFrame_eq]
  rfl

/-- 60_exceptions.md R306: a failing audio call comes after the frame and the delay timer. -/
theorem tick_audio (s : State) : s.tick (some .audio) =
    { s with
      dirty := false, delayTimer := countDown s.delayTimer
      events := s.events ++ (if s.dirty then [.frame s.composite] else []), hostError := true } := by
  have h : s.tick (some .audio) =
      { s.drawFrame with delayTimer := countDown s.drawFrame.delayTimer, hostError := true } := by
    simp [State.tick]
  rw [h, drawFrame_eq]

/-- Settles O10: the tick as one update, and the timers' floor at zero. -/
theorem tickCountsDownAndGates : Obligations.TickCountsDownAndGates := by
  intro s
  have hsound : decide (s.soundTimer ≠ 0) = true ↔ 0 < s.soundTimer.toNat := by
    rw [decide_eq_true_iff, Nat.pos_iff_ne_zero]
    exact not_congr ⟨fun e => congrArg BitVec.toNat e, fun e => BitVec.eq_of_toNat_eq (y := 0) e⟩
  exact ⟨_, tick_none s, rfl, rfl, countDown_toNat _, hsound, countDown_toNat _, rfl⟩

/-- Settles O11: the host's report is the one that the two premises describe. -/
theorem tickOnlyAfterUnfinishedStep : Obligations.TickOnlyAfterUnfinishedStep := by
  intro s w inp hreported hsilent
  have hw : s.reportStorage inp = w := by
    by_cases h : inp.storageFails = true ∧ ∃ bytes, Event.persist bytes ∈ s.events
    · rw [hreported h, State.reportStorage_of_failed h.1 h.2]
      rfl
    · rw [hsilent h, State.reportStorage_of_not h]
  refine ⟨fun hf hu htick => ?_, fun hf hu htick => ?_, fun hf hu => ?_, fun hf => afterStep_of_fault inp hf⟩
  · rw [afterStep_of_unfinished inp hf hu, htick, if_pos rfl, hw]
  · rw [afterStep_of_unfinished inp hf hu, htick, if_neg Bool.false_ne_true, hw]
  · rw [afterStep_of_finished inp hf hu, hw]

/-- Settles O12: the display call comes first and only if `dirty`, the audio call after the frame and the delay timer. -/
theorem hostErrorEndsRun : Obligations.HostErrorEndsRun := by
  intro s
  refine ⟨fun hd => if_pos ⟨hd, rfl⟩, fun hd => ?_, ⟨_, countDown_toNat _, tick_audio s⟩, fun h hhost => ?_⟩
  · simp [State.tick, hd]
  · exact step_of_ended (by simp [State.ended, hhost])

/-! ## What every step keeps -/

/-- Performing an instruction or an unknown word writes neither MODE, the parameters nor the cycle counter. -/
theorem constants_of_perform {d : Decoded} {s t : State} (h : perform d s = .next t) :
    t.mode = s.mode ∧ t.params = s.params ∧ t.cycleCounter = s.cycleCounter := by
  cases d with
  | instr i rest =>
    have k : Kept i s t := kept_of_exec h
    exact ⟨k.mode, k.params, k.cycleCounter⟩
  | unknownOpcode op rest => cases h; exact ⟨rfl, rfl, rfl⟩
  | truncated => cases h; exact ⟨rfl, rfl, rfl⟩

/-- In CHIP8 mode performing keeps the flag store (47_storage.md R268). -/
theorem rpl_of_perform {d : Decoded} {s t : State} (h : perform d s = .next t) (hmode : s.mode = .chip8) :
    t.rpl = s.rpl := by
  cases d with
  | instr i rest => exact rpl_of_exec h hmode
  | unknownOpcode op rest => cases h; rfl
  | truncated => cases h; rfl

/-- Counting and ending an iteration write the counter and what a tick writes, and no other field. -/
theorem countCycle_afterStep_eq (u : State) (inp : Input) :
    ∃ (c : BitVec 64) (d : Bool) (dt st : Byte) (on he : Bool) (ev : List Event), u.countCycle.afterStep inp =
      { u with
        cycleCounter := c, dirty := d, delayTimer := dt, soundTimer := st, audioOn := on, hostError := he
        events := ev } := by
  obtain ⟨d, dt, st, on, he, ev, h⟩ := u.countCycle.afterStep_only inp
  rw [h, u.countCycle_eq]
  exact ⟨_, d, dt, st, on, he, ev, rfl⟩

/-- Settles O14: neither performing nor the end of an iteration writes MODE or the parameters, and only a flag save
outside CHIP8 mode writes the flag store. -/
theorem stepKeepsModeAndChip8Flags : Obligations.StepKeepsModeAndChip8Flags := by
  intro s t h
  obtain ⟨-, ⟨-, rfl⟩ | ⟨-, u, hu, rfl⟩⟩ := step_cases h
  · exact ⟨rfl, rfl, fun _ => rfl⟩
  · obtain ⟨hmode, hparams, -⟩ := constants_of_perform hu
    have hrpl : s.mode = .chip8 → u.rpl = s.rpl := rpl_of_perform (s := sampled s s.nextInput) hu
    obtain ⟨_, _, _, _, _, _, _, hend⟩ := countCycle_afterStep_eq u s.nextInput
    rw [hend]
    exact ⟨hmode, hparams, hrpl⟩

/-- Settles O13: performing does not write the counter, and it is counted once unless the step faulted. -/
theorem stepCountsCycles : Obligations.StepCountsCycles := by
  intro s t h
  obtain ⟨-, ⟨hh, rfl⟩ | ⟨hh, u, hu, rfl⟩⟩ := step_cases h
  · exact ⟨fun _ => rfl, fun hn => absurd hh hn, fun hn => absurd hh hn⟩
  · obtain ⟨-, -, hcycles⟩ := constants_of_perform hu
    have hfault : (u.countCycle.afterStep s.nextInput).fault = u.fault := by
      obtain ⟨_, _, _, _, _, _, _, hend⟩ := countCycle_afterStep_eq u s.nextInput
      rw [hend]
    rw [hfault, cycleCounter_afterStep]
    refine ⟨fun hn => absurd hn hh, fun _ hf => ?_, fun _ hf => ?_⟩
    · rw [countCycle_of_fault hf]
      exact hcycles
    · rw [countCycle_of_none hf]
      exact congrArg (· + 1) hcycles

/-! ## The invariant -/

/-- The sample writes no field that the invariant speaks of. -/
theorem inv_sampled {s : State} (h : s.Inv) (inp : Input) : (sampled s inp).Inv :=
  ⟨h.paramsLegal, h.ramWf, h.slotZero, h.faultPrecise⟩

/-- Nor does the count, nor the end of an iteration. -/
theorem inv_countCycle_afterStep {u : State} (h : u.Inv) (inp : Input) : (u.countCycle.afterStep inp).Inv := by
  obtain ⟨_, _, _, _, _, _, _, hend⟩ := countCycle_afterStep_eq u inp
  rw [hend]
  exact ⟨h.paramsLegal, h.ramWf, h.slotZero, h.faultPrecise⟩

/-- An unknown word moves the program counter, which only a recorded fault speaks of. -/
theorem inv_unknownStep {s : State} (op : Word) (h : s.Inv) (hs : s.fault = none) :
    (s.emit (.warn (.unknownOpcode op))).advance.Inv where
  paramsLegal := h.paramsLegal
  ramWf := h.ramWf
  slotZero := h.slotZero
  faultPrecise := by
    rw [State.advance_fault, State.emit_fault, hs]
    trivial

/-- An instruction that runs without a recorded fault keeps the invariant. -/
theorem inv_of_exec {i : Instr} {s t : State} (h : exec i s = .next t) (hinv : s.Inv) (hs : s.fault = none) :
    t.Inv where
  paramsLegal := by
    rw [(kept_of_exec h).params]
    exact hinv.paramsLegal
  ramWf := by
    rw [(kept_of_exec h).params]
    obtain hram | ⟨bs, hram⟩ := ram_of_exec h
    · rw [hram]
      exact hinv.ramWf
    · rw [hram]
      exact Memory.writeBlock_wf s.idx bs hinv.ramWf
  slotZero := (slotZero_of_exec h).trans hinv.slotZero
  faultPrecise := by
    by_cases ht : t.fault = none
    · rw [ht]
      trivial
    · obtain ⟨nnn, -, hsp, rfl⟩ | ⟨-, hsp, rfl⟩ := onlyStackFaultsFault i s t h hs ht
      · exact ⟨rfl, hsp⟩
      · exact ⟨rfl, hsp⟩

theorem inv_of_perform {d : Decoded} {s t : State} (h : perform d s = .next t) (hinv : s.Inv) (hs : s.fault = none) :
    t.Inv := by
  cases d with
  | instr i rest => exact inv_of_exec h hinv hs
  | unknownOpcode op rest =>
    cases h
    exact inv_unknownStep op hinv hs
  | truncated =>
    cases h
    exact inv_unknownStep _ hinv hs

/-- Settles O15: the sample keeps the invariant and leaves no fault recorded; performing keeps it from there, and so do
the count and the end of the iteration. -/
theorem stepKeepsInvariant : Obligations.StepKeepsInvariant := by
  intro s t hinv h
  have hsampled := inv_sampled hinv s.nextInput
  obtain ⟨he, ⟨-, rfl⟩ | ⟨-, u, hu, rfl⟩⟩ := step_cases h
  · exact hsampled
  · have hfault : s.fault = none := fault_of_not_ended he
    exact inv_countCycle_afterStep (inv_of_perform hu hsampled hfault) s.nextInput

end Sys2Proof.Proofs
end
